-- ==== Sys2Proof/Word.lean ====
section
/-! DEFINITION. The word types: the byte, the 64-bit command word and the 9-bit transport request. -/

namespace Sys2Proof

/-- A byte is 8 bits (00_scope.md R9). -/
abbrev Byte := BitVec 8

/-- The command word `CW[63:0]` the host presents (30_encoding.md R80). -/
abbrev CmdWord := BitVec 64

/-- The transport request `TQ[8:0]` (30_encoding.md R90). -/
abbrev TqWord := BitVec 9

end Sys2Proof
end

