-- ==== Sys2Proof/Syntax.lean ====
section
/-! DEFINITION. The operations: one constructor per row of spec/opcode_table.json. -/

namespace Sys2Proof

/-- The Rotation State's values: "an enumerated value in {0,1,2,3}" (10_state.md R22). -/
inductive Rot
  | r0 | r1 | r2 | r3
  deriving DecidableEq, Repr

/-- The order bit of a transport request: `msb` is 0, `lsb` is 1 (30_encoding.md R90). -/
inductive Order
  | msb | lsb
  deriving DecidableEq, Repr

/-- The seven host commands (30_encoding.md R85) and the two transport requests (30_encoding.md R90).
Operands are those of the textual syntax (30_encoding.md R94): coordinates are integers, the colour is
its 16-bit field. -/
inductive Instr
  | init (r : Rot)
  | setrot (r : Rot)
  | setpix (x y : Int) (color : BitVec 16)
  | getpix (x y : Int)
  | clear
  | refresh
  | invpulse
  | sendmsb (b : Byte)
  | sendlsb (b : Byte)
  deriving DecidableEq, Repr

end Sys2Proof
end

