-- ==== Sys2Proof/WellFormed.lean ====
section
/-! DEFINITION. Which operations can be written in a command word: the ranges of 30_encoding.md R94. -/

namespace Sys2Proof

/-- A coordinate fits its 16-bit two's-complement field (30_encoding.md R86, R94). -/
def coordOk (v : Int) : Bool := decide (-32768 ≤ v) && decide (v ≤ 32767)

/-- The operands are in the ranges of 30_encoding.md R94.  The other operands' types are their fields,
so only coordinates can be out of range. -/
def Instr.wf : Instr → Bool
  | .init _ => true
  | .setrot _ => true
  | .setpix x y _ => coordOk x && coordOk y
  | .getpix x y => coordOk x && coordOk y
  | .clear => true
  | .refresh => true
  | .invpulse => true
  | .sendmsb _ => true
  | .sendlsb _ => true

end Sys2Proof
end

