-- ==== Sys2Proof/Decode.lean ====
section
/-! DEFINITION. Decoding of command words and transport requests, the encoder, and the match/mask table
(30_encoding.md R80 to R90). -/

namespace Sys2Proof

/-! ## Operand assembly (30_encoding.md R86) -/

/-- The 2-bit rotation field, read as an unsigned number (`zext_2`). -/
def Rot.ofBits (v : BitVec 2) : Rot :=
  match v.toNat with
  | 0 => .r0
  | 1 => .r1
  | 2 => .r2
  | _ => .r3

/-- The 2-bit pattern of a rotation. -/
def Rot.toBits : Rot → BitVec 2
  | .r0 => 0#2
  | .r1 => 1#2
  | .r2 => 2#2
  | .r3 => 3#2

/-- The order bit of a transport request. -/
def Order.ofBit : Bool → Order
  | false => .msb
  | true => .lsb

/-- The bit of an order. -/
def Order.toBit : Order → Bool
  | .msb => false
  | .lsb => true

/-! ## The command word (30_encoding.md R80) -/

/-- `op`, `CW[63:56]`. -/
def CmdWord.op (w : CmdWord) : BitVec 8 := w.extractLsb' 56 8
/-- `z`, `CW[55:50]`. -/
def CmdWord.z (w : CmdWord) : BitVec 6 := w.extractLsb' 50 6
/-- `rot`, `CW[49:48]`. -/
def CmdWord.rot (w : CmdWord) : BitVec 2 := w.extractLsb' 48 2
/-- `x`, `CW[47:32]`. -/
def CmdWord.x (w : CmdWord) : BitVec 16 := w.extractLsb' 32 16
/-- `y`, `CW[31:16]`. -/
def CmdWord.y (w : CmdWord) : BitVec 16 := w.extractLsb' 16 16
/-- `color`, `CW[15:0]`. -/
def CmdWord.color (w : CmdWord) : BitVec 16 := w.extractLsb' 0 16

/-- Why a command word is illegal (30_encoding.md R87). -/
inductive DecodeError
  /-- `op` is not in the opcode map of R85. -/
  | unknownOp (op : BitVec 8)
  /-- a bit the format of `op` reserves is 1 (R81 to R84). -/
  | reservedBit (op : BitVec 8)
  deriving DecidableEq, Repr

/-- What decoding answers. -/
inductive Decoded
  | instr (i : Instr)
  | illegal (e : DecodeError)
  deriving DecidableEq, Repr

/-- The decoded operation, if there is one. -/
def Decoded.toOption : Decoded → Option Instr
  | .instr i => some i
  | .illegal _ => none

/-- `i` where the format's reserved bits are all 0, else the word is illegal (30_encoding.md R87). -/
def Decoded.require (reservedZero : Bool) (op : BitVec 8) (i : Instr) : Decoded :=
  if reservedZero then .instr i else .illegal (.reservedBit op)

/-- Format N: `CW[55:0]` zero (30_encoding.md R81). -/
def CmdWord.zeroN (w : CmdWord) : Bool :=
  w.z == 0#6 && w.rot == 0#2 && w.x == 0#16 && w.y == 0#16 && w.color == 0#16
/-- Format R: `z` and `CW[47:0]` zero (30_encoding.md R82). -/
def CmdWord.zeroR (w : CmdWord) : Bool :=
  w.z == 0#6 && w.x == 0#16 && w.y == 0#16 && w.color == 0#16
/-- Format P: `CW[55:48]` zero (30_encoding.md R83). -/
def CmdWord.zeroP (w : CmdWord) : Bool := w.z == 0#6 && w.rot == 0#2
/-- Format Q: `CW[55:48]` and `color` zero (30_encoding.md R84). -/
def CmdWord.zeroQ (w : CmdWord) : Bool := w.z == 0#6 && w.rot == 0#2 && w.color == 0#16

/-- The opcode map (30_encoding.md R85); every other word is illegal (R87). -/
def decode (w : CmdWord) : Decoded :=
  match w.op.toNat with
  | 0x01 => .require w.zeroR w.op (.init (.ofBits w.rot))
  | 0x02 => .require w.zeroR w.op (.setrot (.ofBits w.rot))
  | 0x03 => .require w.zeroP w.op (.setpix w.x.toInt w.y.toInt w.color)
  | 0x04 => .require w.zeroQ w.op (.getpix w.x.toInt w.y.toInt)
  | 0x05 => .require w.zeroN w.op .clear
  | 0x06 => .require w.zeroN w.op .refresh
  | 0x07 => .require w.zeroN w.op .invpulse
  | _ => .illegal (.unknownOp w.op)

/-! ## The transport request (30_encoding.md R90) -/

/-- The operation of an order and a byte. -/
def transportInstr : Order → Byte → Instr
  | .msb, b => .sendmsb b
  | .lsb, b => .sendlsb b

/-- `TQ[8]`, the order. -/
def TqWord.order (t : TqWord) : Order := .ofBit (t.getLsbD 8)
/-- `TQ[7:0]`, the byte. -/
def TqWord.byte (t : TqWord) : Byte := t.extractLsb' 0 8

/-- All 512 requests are legal (30_encoding.md R90). -/
def decodeTq (t : TqWord) : Instr := transportInstr (TqWord.order t) (TqWord.byte t)

/-- The request of an order and a byte: `order ++ byte` (30_encoding.md R90). -/
def encodeTq (o : Order) (b : Byte) : TqWord := BitVec.ofBool o.toBit ++ b

/-! ## The encoder -/

/-- One encoded operation: a command word or a transport request. -/
inductive Request
  | command (w : CmdWord)
  | transport (t : TqWord)
  deriving DecidableEq, Repr

/-- A command word from its fields, highest first (30_encoding.md R80). -/
def cmdWord (op : BitVec 8) (rot : BitVec 2) (x y color : BitVec 16) : CmdWord :=
  op ++ 0#6 ++ rot ++ x ++ y ++ color

/-- The encoding of an operation, from the tables of 30_encoding.md R81 to R85 and R90. -/
def encode : Instr → Request
  | .init r => .command (cmdWord 0x01#8 r.toBits 0#16 0#16 0#16)
  | .setrot r => .command (cmdWord 0x02#8 r.toBits 0#16 0#16 0#16)
  | .setpix x y c => .command (cmdWord 0x03#8 0#2 (BitVec.ofInt 16 x) (BitVec.ofInt 16 y) c)
  | .getpix x y => .command (cmdWord 0x04#8 0#2 (BitVec.ofInt 16 x) (BitVec.ofInt 16 y) 0#16)
  | .clear => .command (cmdWord 0x05#8 0#2 0#16 0#16 0#16)
  | .refresh => .command (cmdWord 0x06#8 0#2 0#16 0#16 0#16)
  | .invpulse => .command (cmdWord 0x07#8 0#2 0#16 0#16 0#16)
  | .sendmsb b => .transport (encodeTq .msb b)
  | .sendlsb b => .transport (encodeTq .lsb b)

/-- What a request decodes to. -/
def decodeRequest : Request → Decoded
  | .command w => decode w
  | .transport t => .instr (decodeTq t)

/-! ## The match/mask table (30_encoding.md R85) -/

/-- The match and mask of the command word's rows; no row for a transport request, which the host
cannot issue (30_encoding.md R90). -/
structure TableRow where
  matchWord : CmdWord
  mask : CmdWord
  deriving DecidableEq, Repr

/-- A word selects a row when `CW AND mask = match` (30_encoding.md R85). -/
def TableRow.selects (r : TableRow) (w : CmdWord) : Bool := w &&& r.mask == r.matchWord

/-- The seven rows of 30_encoding.md R85, in its order. -/
def commandTable : List TableRow :=
  [⟨0x0100000000000000#64, 0xFFFCFFFFFFFFFFFF#64⟩,
   ⟨0x0200000000000000#64, 0xFFFCFFFFFFFFFFFF#64⟩,
   ⟨0x0300000000000000#64, 0xFFFF000000000000#64⟩,
   ⟨0x0400000000000000#64, 0xFFFF00000000FFFF#64⟩,
   ⟨0x0500000000000000#64, 0xFFFFFFFFFFFFFFFF#64⟩,
   ⟨0x0600000000000000#64, 0xFFFFFFFFFFFFFFFF#64⟩,
   ⟨0x0700000000000000#64, 0xFFFFFFFFFFFFFFFF#64⟩]

/-! ## Words numbered as spec/opcode_table.json numbers them -/

/-- A table row of at most 16 bits is a transport request (9 bits, in whole bytes 16); a wider one is a
command word (log 14). -/
def requestOfTable (nbits w : Nat) : Request :=
  if nbits ≤ 16 then .transport (BitVec.ofNat 9 w) else .command (BitVec.ofNat 64 w)

/-- The instruction the decoder reads from the bits `w`; none where it refuses, or where `w` has a bit
above the request's own. -/
def decodeTableWord (nbits w : Nat) : Option Instr :=
  if w < (if nbits ≤ 16 then 512 else 18446744073709551616) then
    (decodeRequest (requestOfTable nbits w)).toOption
  else none

end Sys2Proof
end

