-- ==== Sys2Proof/Config.lean ====
section
/-! DEFINITION. What an instance of the hardware fixes: the open parameters of 00_scope.md R6 to R8 under
their constraints, and the free values of power-on (10_state.md R32). None of it is state (10_state.md R26). -/

namespace Sys2Proof

/-- The four output lines of the Device Handle, in the order SMD lists them (10_state.md R25). -/
inductive Line
  | clk | data | cs | inv
  deriving DecidableEq, Repr

/-- The four named delay constants (00_scope.md R8). -/
inductive Delay
  | settle | hold | deselect | inv
  deriving DecidableEq, Repr

/-- One instance of the hardware.  Each field is a coordinate of the set of legal configurations, so
that every value of `Params` is a legal configuration and every legal one is a value of it
(`Laws.Config`): 00_scope.md R6 (`W mod 8 = 0`, `W ≥ 8`, `1 ≤ H ≤ 255`), R7 (`CMD_WRITE ≠ CMD_CLEAR`),
R8 (each delay is 1, 2 or 3 microseconds).  The last two fields are the values 10_state.md R32 leaves
unspecified after reset. -/
structure Params where
  /-- `W/8 - 1`. -/
  extraGroups : Nat
  /-- `H - 1`. -/
  extraLines : Fin 255
  /-- `CMD_WRITE`. -/
  cmdWrite : Byte
  /-- `CMD_CLEAR - CMD_WRITE - 1` modulo 256. -/
  cmdGap : Fin 255
  /-- `T_SETTLE - 1` in microseconds. -/
  settleExtra : Fin 3
  /-- `T_HOLD - 1` in microseconds. -/
  holdExtra : Fin 3
  /-- `T_DESELECT - 1` in microseconds. -/
  deselectExtra : Fin 3
  /-- `T_INV - 1` in microseconds. -/
  invExtra : Fin 3
  /-- What `BUF[i]` holds after reset: any value (93_implementation_defined.md U6). -/
  resetByte : Nat → Byte
  /-- The level of a line's latch after reset: any value (93_implementation_defined.md U7). -/
  resetLevel : Line → Bool
  deriving Inhabited

/-- `W/8`, the bytes of one panel line (00_scope.md R6). -/
def Params.bytesPerLine (p : Params) : Nat := p.extraGroups + 1

/-- `W`, the width in pixels (00_scope.md R6). -/
def Params.W (p : Params) : Nat := 8 * p.bytesPerLine

/-- `H`, the height in lines (00_scope.md R6). -/
def Params.H (p : Params) : Nat := p.extraLines.val + 1

/-- `N = W*H/8`, the bytes of `BUF` (00_scope.md R6). -/
def Params.N (p : Params) : Nat := p.W * p.H / 8

/-- `CMD_CLEAR` (00_scope.md R7). -/
def Params.cmdClear (p : Params) : Byte := p.cmdWrite + BitVec.ofNat 8 (p.cmdGap.val + 1)

/-- The microseconds of a named delay: one of 1, 2, 3 (00_scope.md R8). -/
def Params.micros (p : Params) : Delay → Nat
  | .settle => p.settleExtra.val + 1
  | .hold => p.holdExtra.val + 1
  | .deselect => p.deselectExtra.val + 1
  | .inv => p.invExtra.val + 1

/-- The instance this model is of: an uninterpreted constant, so that what is proved of it holds of
every legal configuration and of every power-on image (92_eei_decisions.md D8, D9, D10, D17). -/
opaque Config.params : Params

end Sys2Proof
end

