-- ==== Sys2Proof/Machine/State.lean ====
section
/-! DEFINITION. The state of the block: 10_state.md R20 (what persists), R30 (what exists only inside a
command), the transport request (30_encoding.md R90), and the model's own history and input. -/

namespace Sys2Proof.Machine

open Sys2Proof

/-- `BUF`, as the bytes that differ from what the buffer held at reset: address and byte, addresses
rising (20_memory.md R50). -/
abbrev Memory := List Host.Cell

/-- The output latches `L.CLK`, `L.DATA`, `L.CS`, `L.INV`; `true` is high (10_state.md R25). -/
structure Levels where
  clk : Bool
  data : Bool
  cs : Bool
  inv : Bool
  deriving DecidableEq, Repr

/-- The event alphabet of `TRACE` (00_scope.md R10). -/
inductive Event
  /-- one `configure-as-output` call on the line -/
  | cfg (l : Line)
  /-- one `set-output-level` call driving the line to the level -/
  | set (l : Line) (v : Bool)
  /-- one blocking wait of the named constant -/
  | wait (c : Delay)
  deriving DecidableEq, Repr

/-- `TST` other than `T_IDLE` (40_transport.md R117). -/
inductive TPhase
  | low | data | high | final
  deriving DecidableEq, Repr

/-- The encoder at work: `TST`, the order latch `o`, the shift register `SR` and the bit counter `n`
(40_transport.md R117). -/
structure Transport where
  phase : TPhase
  order : Order
  sr : Byte
  n : Nat
  deriving DecidableEq, Repr

/-- `kind`, which frame is in progress (42_refresh_sequencer.md R166). -/
inductive Kind
  | clear | refresh
  deriving DecidableEq, Repr

/-- The values of `SEQ` inside a chip-select frame (42_refresh_sequencer.md R166). -/
inductive FPhase
  | csUp | settle | cmd | clrDummy | addr | data | term | trail | hold | csDown | desel
  deriving DecidableEq, Repr

/-- A frame in progress: `SEQ`, `kind` and the counters `i`, `cnt`, `line` (42_refresh_sequencer.md R166). -/
structure Frame where
  phase : FPhase
  kind : Kind
  i : Nat
  cnt : Nat
  line : Nat
  deriving DecidableEq, Repr

/-- `SEQ` with the transient state that exists with it (42_refresh_sequencer.md R166). -/
inductive Seq
  | idle
  | frame (f : Frame)
  | invUp | invHold | invDown
  deriving DecidableEq, Repr

/-- The machine.  The first five fields are the whole of 10_state.md R20; `seq`, `tst` and `tq` are the
transient state of R30 with the request of 30_encoding.md R90; `trace` is the history of R31; `cmds`
is the host's side of 00_scope.md R10: the command words it has yet to present. -/
structure State where
  buf : Memory
  rot : Rot
  initd : Bool
  fault : BitVec 4
  lines : Levels
  seq : Seq
  tst : Option Transport
  tq : Option TqWord
  trace : List Event
  cmds : List CmdWord
  deriving DecidableEq, Repr

/-- Why the machine stops.  (A fault of the spec is not one of these: it sets a bit of `FAULT` and the
block goes on, 60_exceptions.md R201.) -/
inductive Fault
  /-- An access to `BUF` at an index outside `0 .. N-1`, which the spec says does not exist
  (20_memory.md R50).  Raised by the buffer accesses of SETPIX, REFRESH and the reference machine's
  `S_DATA`; no run reaches it.  Safe. -/
  | bufferIndex
  deriving DecidableEq, Repr

/-- Why the model gives no meaning. -/
inductive Refusal
  /-- The operation has no meaning in the model.  Raised by an arm of `exec` that is not written yet;
  no arm is.  Safe. -/
  | notModelled (mnemonic : String)
  deriving DecidableEq, Repr

/-- The outcome of one operation or one step. -/
abbrev Result := Host.Outcome State Fault Refusal

/-- The latches right after power-on: unspecified levels (10_state.md R32, log 5). -/
def Levels.reset : Levels :=
  { clk := Config.params.resetLevel .clk
    data := Config.params.resetLevel .data
    cs := Config.params.resetLevel .cs
    inv := Config.params.resetLevel .inv }

/-- The machine right after power-on (10_state.md R32): `BUF` lists nothing, so every byte reads as its
unspecified reset value (log 4). -/
def State.reset : State :=
  { buf := []
    rot := .r0
    initd := false
    fault := 0#4
    lines := Levels.reset
    seq := .idle
    tst := none
    tq := none
    trace := []
    cmds := [] }

end Sys2Proof.Machine
end

