-- ==== Sys2Proof/Machine/Flags.lean ====
section
/-! DEFINITION. The sticky fault bits `FAULT[3:0]` (10_state.md R24, 60_exceptions.md R202).  The block has no
condition codes (10_state.md R29), so there is no other flag to compute. -/

namespace Sys2Proof.Machine

open Sys2Proof

/-- The four causes (60_exceptions.md R202). -/
inductive Cause
  | illegalCmd | notInit | unsupported | xformRange
  deriving DecidableEq, Repr

/-- The code `k` of a cause (60_exceptions.md R202). -/
def Cause.code : Cause → Nat
  | .illegalCmd => 0
  | .notInit => 1
  | .unsupported => 2
  | .xformRange => 3

/-- The fault bits with the bit of a cause set: bits are sticky (10_state.md R24). -/
def faultSet (f : BitVec 4) (k : Cause) : BitVec 4 := f ||| (1#4 <<< k.code)

/-- The status output `fault[3:0]`, visible at all times (10_state.md R24). -/
def State.faultOut (s : State) : BitVec 4 := s.fault

end Sys2Proof.Machine
end

