-- ==== Sys2Proof/Machine/Operands.lean ====
section
/-! DEFINITION. The operands of a command and the coordinate arithmetic of a pixel write: 30_encoding.md R86,
41_pixel_address.md R132 to R136.  All arithmetic is over the integers (41_pixel_address.md R138). -/

namespace Sys2Proof.Machine

open Sys2Proof

/-- `C = (CW[15:0] != 0)` (30_encoding.md R86). -/
def colorBit (color : BitVec 16) : Bool := color != 0#16

/-- `InBounds(X, Y)`, on the logical coordinates, against `W` and `H` whatever `ROT` is
(41_pixel_address.md R132). -/
def inBounds (p : Params) (x y : Int) : Bool :=
  decide (0 ≤ x) && decide (x < p.W) && decide (0 ≤ y) && decide (y < p.H)

/-- `Rotate(r, x, y)` (41_pixel_address.md R133). -/
def rotate (p : Params) (r : Rot) (x y : Int) : Int × Int :=
  match r with
  | .r0 => (x, y)
  | .r1 => (p.W - 1 - y, x)
  | .r2 => (p.W - 1 - x, p.H - 1 - y)
  | .r3 => (y, p.H - 1 - x)

/-- `Mirror(x, y)` (41_pixel_address.md R134). -/
def mirror (p : Params) (xy : Int × Int) : Int × Int := (p.W - 1 - xy.1, xy.2)

/-- Buffer coordinates of logical ones: the rotation, then the mirror (41_pixel_address.md R131). -/
def bufferCoords (p : Params) (r : Rot) (x y : Int) : Int × Int := mirror p (rotate p r x y)

/-- `InBuffer(xb, yb)` (41_pixel_address.md R136). -/
def inBuffer (p : Params) (xb yb : Int) : Bool :=
  decide (0 ≤ xb) && decide (xb < p.W) && decide (0 ≤ yb) && decide (yb < p.H)

/-- `i = (yb*W + xb) div 8` (41_pixel_address.md R135). -/
def byteIndex (p : Params) (xb yb : Int) : Nat := ((yb * p.W + xb) / 8).toNat

/-- `k = xb mod 8` (41_pixel_address.md R135). -/
def bitIndex (xb : Int) : Nat := (xb % 8).toNat

/-- One bit of a byte set or cleared (41_pixel_address.md R135). -/
def writeBit (b : Byte) (k : Nat) (c : Bool) : Byte :=
  if c then b ||| (1#8 <<< k) else b &&& ~~~(1#8 <<< k)

/-- `line[7:0]`, the line address as sent (42_refresh_sequencer.md R170). -/
def lineByte (line : Nat) : Byte := BitVec.ofNat 8 line

end Sys2Proof.Machine
end

