-- ==== Sys2Proof/Machine/Ops.lean ====
section
/-! DEFINITION. The named operations over the state: the buffer, the lines and the trace, raising a fault, the
two guards of a command, and the transport request `Tx` (00_scope.md R14). -/

namespace Sys2Proof.Machine

open Sys2Proof

/-! ## The pixel buffer (20_memory.md R50, R54) -/

/-- What an unlisted byte of `BUF` reads as: its unspecified reset value (10_state.md R32, log 4). -/
def Memory.unlisted (p : Params) (a : Nat) : Byte := p.resetByte a

/-- The byte at an index, `BUF[i]` (00_scope.md R14). -/
def Memory.get (p : Params) : Memory → Nat → Byte
  | [], a => Memory.unlisted p a
  | c :: m, a => if c.1 = a then c.2 else Memory.get p m a

/-- A listed byte in front of `m`, left out where it equals what an unlisted one reads as. -/
def Memory.consCell (p : Params) (a : Nat) (v : Byte) (m : Memory) : Memory :=
  if v = Memory.unlisted p a then m else (a, v) :: m

/-- `BUF[i] <- v`, keeping addresses rising and no byte listed that equals its unlisted value. -/
def Memory.put (p : Params) : Memory → Nat → Byte → Memory
  | [], a, v => Memory.consCell p a v []
  | c :: m, a, v =>
    if c.1 < a then c :: Memory.put p m a v
    else if c.1 = a then Memory.consCell p a v m
    else Memory.consCell p a v (c :: m)

/-- The canonical form: addresses strictly rising, inside `0 .. N-1`, and no entry equal to what an
unlisted byte reads as. -/
abbrev Memory.wf (p : Params) (m : Memory) : Prop :=
  m.Pairwise (fun c d => c.1 < d.1) ∧ ∀ c ∈ m, c.1 < p.N ∧ c.2 ≠ Memory.unlisted p c.1

/-- `BUF[i] <- 0x00` for the indices of a list, in its order. -/
def Memory.zeroAt (p : Params) : List Nat → Memory → Memory
  | [], m => m
  | i :: is, m => Memory.zeroAt p is (Memory.put p m i 0#8)

/-- `BUF[i] <- 0x00` for `i = 0 .. N-1` (42_refresh_sequencer.md R162). -/
def Memory.zero (p : Params) (m : Memory) : Memory := Memory.zeroAt p (List.range p.N) m

/-- A read of `BUF[i]`; an index outside `0 .. N-1` does not exist (20_memory.md R50, log 11). -/
def withByte (p : Params) (i : Nat) (s : State) (k : Byte → Result) : Result :=
  if i < p.N then k (Memory.get p s.buf i) else .fault .bufferIndex

/-! ## Outcomes -/

/-- One operation, and then another on the state it leaves. -/
def andThen (r : Result) (k : State → Result) : Result :=
  match r with
  | .next s => k s
  | .fault f => .fault f
  | .refused f => .refused f

/-! ## Lines and trace (00_scope.md R14) -/

/-- The level of a line's latch. -/
def Levels.get (L : Levels) : Line → Bool
  | .clk => L.clk
  | .data => L.data
  | .cs => L.cs
  | .inv => L.inv

/-- `L.l <- v`. -/
def Levels.put (L : Levels) (l : Line) (v : Bool) : Levels :=
  match l with
  | .clk => { L with clk := v }
  | .data => { L with data := v }
  | .cs => { L with cs := v }
  | .inv => { L with inv := v }

/-- `Set(l, v)`: the latch takes the level and the event is appended (00_scope.md R14). -/
def setLine (l : Line) (v : Bool) (s : State) : State :=
  { s with lines := s.lines.put l v, trace := s.trace ++ [.set l v] }

/-- `Wait(c)`: the event is appended and no state changes (00_scope.md R14). -/
def waitFor (c : Delay) (s : State) : State := { s with trace := s.trace ++ [.wait c] }

/-- `Cfg(l)`: the event is appended and no state changes (00_scope.md R14). -/
def configure (l : Line) (s : State) : State := { s with trace := s.trace ++ [.cfg l] }

/-! ## Faults (60_exceptions.md R201) -/

/-- `raise Fault(k)`: the bit is set, the command ends, nothing else changes and no event is appended.
The block goes on, so this is a next state (60_exceptions.md R201, R208). -/
def raiseFault (k : Cause) (s : State) : Result := .next { s with fault := faultSet s.fault k }

/-- `if INITD = 0: raise Fault(NOT_INIT)`, in front of every command but INIT (60_exceptions.md R203). -/
def whenInit (s : State) (k : State → Result) : Result :=
  if s.initd then k s else raiseFault .notInit s

/-! ## The serial-bit-encoder (40_transport.md R111, R112) -/

/-- The bit the order's multiplexer feeds to `DATA`: `SR[7]` or `SR[0]`. -/
def outBit : Order → Byte → Bool
  | .msb, sr => sr.getLsbD 7
  | .lsb, sr => sr.getLsbD 0

/-- The shift of the order: left for MSB-first, right for LSB-first, a 0 shifted in. -/
def shiftOut : Order → Byte → Byte
  | .msb, sr => sr <<< 1
  | .lsb, sr => sr >>> 1

/-- The bits of a request, `count` of them still to send. -/
def txBits (o : Order) : Nat → Byte → State → State
  | 0, _, s => s
  | count + 1, sr, s =>
    txBits o count (shiftOut o sr)
      (setLine .clk true (setLine .data (outBit o sr) (setLine .clk false s)))

/-- `Tx(o, b)`: eight bits, then the clock low (40_transport.md R111, R112). -/
def tx (o : Order) (b : Byte) (s : State) : State := setLine .clk false (txBits o 8 b s)

/-! ## Chip-select framing (42_refresh_sequencer.md R161) -/

/-- `Select()`. -/
def select (s : State) : State := waitFor .settle (setLine .cs true s)

/-- `Deselect()`. -/
def deselect (s : State) : State := waitFor .deselect (setLine .cs false (waitFor .hold s))

end Sys2Proof.Machine
end

