-- ==== Sys2Proof/Machine/Pixel.lean ====
section
/-! DEFINITION. The framebuffer-address-generator: SETROT, SETPIX, GETPIX (41_pixel_address.md).  A definition
that takes `Params` is the operation of any instance; the meaning is that of `Config.params`. -/

namespace Sys2Proof.Machine

open Sys2Proof

/-- SETROT (41_pixel_address.md R130). -/
def execSetrot (r : Rot) (s : State) : Result := whenInit s fun s => .next { s with rot := r }

/-- `BitWrite(xb, yb, C)` (41_pixel_address.md R135). -/
def bitWrite (p : Params) (xb yb : Int) (c : Bool) (s : State) : Result :=
  withByte p (byteIndex p xb yb) s fun b =>
    .next { s with buf := Memory.put p s.buf (byteIndex p xb yb) (writeBit b (bitIndex xb) c) }

/-- A SETPIX past the INITD check: the silent bounds check, the transform, the guard on buffer
coordinates, the write, in this order (41_pixel_address.md R131, 60_exceptions.md R207). -/
def pixelWrite (p : Params) (x y : Int) (c : Bool) (s : State) : Result :=
  if inBounds p x y then
    let q := bufferCoords p s.rot x y
    if inBuffer p q.1 q.2 then bitWrite p q.1 q.2 c s else raiseFault .xformRange s
  else .next s

/-- SETPIX on an instance (41_pixel_address.md R131). -/
def setpixOn (p : Params) (x y : Int) (c : Bool) (s : State) : Result :=
  whenInit s (pixelWrite p x y c)

/-- SETPIX (41_pixel_address.md R131). -/
def execSetpix (x y : Int) (color : BitVec 16) (s : State) : Result :=
  setpixOn Config.params x y (colorBit color) s

/-- GETPIX: the operands are ignored (41_pixel_address.md R137). -/
def execGetpix (_x _y : Int) (s : State) : Result := whenInit s (raiseFault .unsupported)

end Sys2Proof.Machine
end

