-- ==== Sys2Proof/Machine/Sequencer.lean ====
section
/-! DEFINITION. The lcd-refresh-sequencer: INIT, CLEAR, REFRESH, INVPULSE, each one atomic command
(42_refresh_sequencer.md R160 to R165).  A definition that takes `Params` is the operation of any
instance; the meaning is that of `Config.params`. -/

namespace Sys2Proof.Machine

open Sys2Proof

/-- `Cfg(l); Set(l, 0)` (42_refresh_sequencer.md R160). -/
def initLine (l : Line) (s : State) : State := setLine l false (configure l s)

/-- INIT: the four lines in the order SMD lists them, then `ROT` and `INITD`
(42_refresh_sequencer.md R160). -/
def execInit (r : Rot) (s : State) : Result :=
  let t := initLine .inv (initLine .cs (initLine .data (initLine .clk s)))
  .next { t with rot := r, initd := true }

/-- CLEAR on an instance, past the INITD check (42_refresh_sequencer.md R162). -/
def clearFrame (p : Params) (s : State) : State :=
  let s1 := { s with buf := Memory.zero p s.buf }
  deselect (tx .msb 0#8 (tx .msb p.cmdClear (select s1)))

/-- CLEAR on an instance (42_refresh_sequencer.md R162). -/
def clearOn (p : Params) (s : State) : Result := whenInit s fun s => .next (clearFrame p s)

/-- CLEAR (42_refresh_sequencer.md R162). -/
def execClear (s : State) : Result := clearOn Config.params s

/-- The loop of REFRESH over the buffer indices still to send, with `cnt` bytes sent of line `line`:
steps 4 and 5 of 42_refresh_sequencer.md R163. -/
def refreshBytes (p : Params) : List Nat → Nat → Nat → State → Result
  | [], _, _, s => .next s
  | i :: is, cnt, line, s =>
    withByte p i s fun b =>
      let s1 := tx .lsb b s
      if cnt + 1 = p.bytesPerLine then
        let s2 := tx .msb 0#8 s1
        let s3 := if line + 1 ≤ p.H then tx .lsb (lineByte (line + 1)) s2 else s2
        refreshBytes p is 0 (line + 1) s3
      else refreshBytes p is (cnt + 1) line s1

/-- REFRESH on an instance, past the INITD check (42_refresh_sequencer.md R163). -/
def refreshFrame (p : Params) (s : State) : Result :=
  andThen
    (refreshBytes p (List.range p.N) 0 1 (tx .lsb (lineByte 1) (tx .msb p.cmdWrite (select s))))
    fun t => .next (deselect (tx .msb 0#8 t))

/-- REFRESH on an instance (42_refresh_sequencer.md R163). -/
def refreshOn (p : Params) (s : State) : Result := whenInit s (refreshFrame p)

/-- REFRESH (42_refresh_sequencer.md R163). -/
def execRefresh (s : State) : Result := refreshOn Config.params s

/-- INVPULSE (42_refresh_sequencer.md R164). -/
def execInvpulse (s : State) : Result :=
  whenInit s fun s => .next (setLine .inv false (waitFor .inv (setLine .inv true s)))

end Sys2Proof.Machine
end

