-- ==== Sys2Proof/Machine/Transport.lean ====
section
/-! DEFINITION. The serial-bit-encoder's two requests (40_transport.md R111, R112).  They read nothing but the
request: no INITD check, no fault (40_transport.md R110). -/

namespace Sys2Proof.Machine

open Sys2Proof

/-- SENDMSB (40_transport.md R111). -/
def execSendmsb (b : Byte) (s : State) : Result := .next (tx .msb b s)

/-- SENDLSB (40_transport.md R112). -/
def execSendlsb (b : Byte) (s : State) : Result := .next (tx .lsb b s)

end Sys2Proof.Machine
end

