-- ==== Sys2Proof/Machine/Dispatch.lean ====
section
/-! DEFINITION. The dispatch: one arm per operation, one direct call of its meaning. -/

namespace Sys2Proof.Machine

open Sys2Proof

/-- The meaning of an operation, once the block has accepted it. -/
def exec (i : Instr) (s : State) : Host.Outcome State Fault Refusal :=
  match i with
  | .init r => Sys2Proof.Machine.execInit r s
  | .setrot r => Sys2Proof.Machine.execSetrot r s
  | .setpix x y color => Sys2Proof.Machine.execSetpix x y color s
  | .getpix x y => Sys2Proof.Machine.execGetpix x y s
  | .clear => Sys2Proof.Machine.execClear s
  | .refresh => Sys2Proof.Machine.execRefresh s
  | .invpulse => Sys2Proof.Machine.execInvpulse s
  | .sendmsb b => Sys2Proof.Machine.execSendmsb b s
  | .sendlsb b => Sys2Proof.Machine.execSendlsb b s

end Sys2Proof.Machine
end

