-- ==== Sys2Proof/Machine/Fetch.lean ====
section
/-! DEFINITION. Taking the next operation: a transport request put to the encoder, else the command word the
host presents (30_encoding.md R80, R90). -/

namespace Sys2Proof.Machine

open Sys2Proof

/-- What the idle block finds to do. -/
inductive Fetched
  /-- no request and no command word: the block rests (60_exceptions.md R213) -/
  | nothing
  /-- an operation, and the state with its word taken -/
  | operation (i : Instr) (s : State)
  /-- an illegal command word, and the state with it taken (30_encoding.md R87) -/
  | illegal (e : DecodeError) (s : State)
  deriving DecidableEq, Repr

/-- The outcome of decoding, with the state the word was taken from. -/
def Fetched.ofDecoded (s : State) : Decoded → Fetched
  | .instr i => .operation i s
  | .illegal e => .illegal e s

/-- A pending transport request is taken before a command word: the encoder is the callee and the host
waits for it (00_scope.md R12, log 2). -/
def fetch (s : State) : Fetched :=
  match s.tq with
  | some t => Fetched.ofDecoded { s with tq := none } (decodeRequest (.transport t))
  | none =>
    match s.cmds with
    | [] => .nothing
    | w :: ws => Fetched.ofDecoded { s with cmds := ws } (decodeRequest (.command w))

/-- The host presents one more command word, after those it has presented (00_scope.md R10). -/
def State.present (s : State) (w : CmdWord) : State := { s with cmds := s.cmds ++ [w] }

/-- The state with a request as the next operation and the block idle. -/
def State.place (s : State) : Request → State
  | .command w => { s with seq := .idle, tst := none, tq := none, cmds := w :: s.cmds }
  | .transport t => { s with seq := .idle, tst := none, tq := some t }

end Sys2Proof.Machine
end

