-- ==== Sys2Proof/Machine/Fsm.lean ====
section
/-! DEFINITION. The reference state machines, one event a step: the encoder's (40_transport.md R117) and the
sequencer's (42_refresh_sequencer.md R166, R167).  They act on the same state as the atomic commands. -/

namespace Sys2Proof.Machine

open Sys2Proof

/-- A command or a transport request is under way. -/
def State.busy (s : State) : Bool := decide (s.seq ≠ .idle) || s.tst.isSome

/-- The row `T_IDLE`: the latches take the request (40_transport.md R117). -/
def Transport.load (t : TqWord) : Transport :=
  { phase := .low, order := TqWord.order t, sr := TqWord.byte t, n := 0 }

/-- The other rows of 40_transport.md R117. -/
def transportStep (t : Transport) (s : State) : State :=
  match t.phase with
  | .low => setLine .clk false { s with tst := some { t with phase := .data } }
  | .data => setLine .data (outBit t.order t.sr) { s with tst := some { t with phase := .high } }
  | .high =>
    setLine .clk true
      { s with tst := some { t with phase := if t.n + 1 < 8 then .low else .final
                                    sr := shiftOut t.order t.sr
                                    n := t.n + 1 } }
  | .final => setLine .clk false { s with tst := none }

/-- A state that issues `Tx(o, b)` puts the request to the encoder and names the state that follows;
that state waits until the transport is back in `T_IDLE` (42_refresh_sequencer.md R167, log 8). -/
def issue (o : Order) (b : Byte) (q : Seq) (s : State) : State :=
  { s with tq := some (encodeTq o b), seq := q }

/-- The rows of a frame (42_refresh_sequencer.md R167). -/
def frameStep (p : Params) (f : Frame) (s : State) : Result :=
  match f.phase with
  | .csUp => .next (setLine .cs true { s with seq := .frame { f with phase := .settle } })
  | .settle => .next (waitFor .settle { s with seq := .frame { f with phase := .cmd } })
  | .cmd =>
    match f.kind with
    | .clear => .next (issue .msb p.cmdClear (.frame { f with phase := .clrDummy }) s)
    | .refresh => .next (issue .msb p.cmdWrite (.frame { f with phase := .addr }) s)
  | .clrDummy => .next (issue .msb 0#8 (.frame { f with phase := .hold }) s)
  | .addr => .next (issue .lsb (lineByte f.line) (.frame { f with phase := .data }) s)
  | .data =>
    withByte p f.i s fun b =>
      .next (issue .lsb b
        (.frame { f with phase := if f.cnt + 1 = p.bytesPerLine then .term else .data
                         i := f.i + 1
                         cnt := f.cnt + 1 }) s)
  | .term =>
    .next (issue .msb 0#8
      (.frame { f with phase := if f.line + 1 ≤ p.H then .addr else .trail
                       cnt := 0
                       line := f.line + 1 }) s)
  | .trail => .next (issue .msb 0#8 (.frame { f with phase := .hold }) s)
  | .hold => .next (waitFor .hold { s with seq := .frame { f with phase := .csDown } })
  | .csDown => .next (setLine .cs false { s with seq := .frame { f with phase := .desel } })
  | .desel => .next (waitFor .deselect { s with seq := .idle })

/-- The sequencer's rows other than `S_IDLE` (42_refresh_sequencer.md R167); in `S_IDLE` it rests. -/
def seqStep (p : Params) (s : State) : Result :=
  match s.seq with
  | .idle => .next s
  | .frame f => frameStep p f s
  | .invUp => .next (setLine .inv true { s with seq := .invHold })
  | .invHold => .next (waitFor .inv { s with seq := .invDown })
  | .invDown => .next (setLine .inv false { s with seq := .idle })

/-- One step of the reference machine: the encoder first, then a pending request, and the sequencer
only when the transport is in `T_IDLE` (42_refresh_sequencer.md R167). -/
def fsmStep (p : Params) (s : State) : Result :=
  match s.tst with
  | some t => .next (transportStep t s)
  | none =>
    match s.tq with
    | some t => .next { s with tq := none, tst := some (Transport.load t) }
    | none => seqStep p s

/-- The frame a command starts in `S_IDLE`: its counters at 0 and `line` at 1 for REFRESH
(42_refresh_sequencer.md R167); CLEAR does not use them (log 9). -/
def Frame.start : Kind → Frame
  | .clear => { phase := .csUp, kind := .clear, i := 0, cnt := 0, line := 0 }
  | .refresh => { phase := .csUp, kind := .refresh, i := 0, cnt := 0, line := 1 }

/-- The rows of `S_IDLE` (42_refresh_sequencer.md R167): CLEAR, REFRESH and INVPULSE are accepted when
`INITD = 1`; every other command and every faulting one completes within `S_IDLE` (R166).  A transport
request is put to the encoder (40_transport.md R117). -/
def fsmBegin (p : Params) (i : Instr) (s : State) : Result :=
  match i with
  | .init r => execInit r s
  | .setrot r => execSetrot r s
  | .setpix x y color => setpixOn p x y (colorBit color) s
  | .getpix x y => execGetpix x y s
  | .clear =>
    whenInit s fun s =>
      .next { s with buf := Memory.zero p s.buf, seq := .frame (Frame.start .clear) }
  | .refresh => whenInit s fun s => .next { s with seq := .frame (Frame.start .refresh) }
  | .invpulse => whenInit s fun s => .next { s with seq := .invUp }
  | .sendmsb b => .next { s with tq := some (encodeTq .msb b) }
  | .sendlsb b => .next { s with tq := some (encodeTq .lsb b) }

/-- The reference machine run for a number of steps. -/
def fsmRun (p : Params) : Nat → State → Result
  | 0, s => .next s
  | k + 1, s => andThen (fsmStep p s) (fsmRun p k)

end Sys2Proof.Machine
end

