-- ==== Sys2Proof/Machine/Step.lean ====
section
/-! DEFINITION. One step of the machine. -/

namespace Sys2Proof.Machine

open Sys2Proof

/-- The idle block runs the next operation as one atomic transition (00_scope.md R10); an illegal word
raises ILLEGAL_CMD whatever INITD is (60_exceptions.md R206); with nothing presented it rests.  A block
in the middle of a command, as the reference machine leaves it, takes that machine's next step and
accepts no command (42_refresh_sequencer.md R168, log 7). -/
def step (s : State) : Host.Outcome State Fault Refusal :=
  if s.busy then fsmStep Config.params s
  else
    match fetch s with
    | .nothing => .next s
    | .operation i t => exec i t
    | .illegal _ t => raiseFault .illegalCmd t

/-- `s` with the bits `w` of an opcode-table row as the next operation (log 14). -/
def State.withFetchWord (s : State) (nbits w : Nat) : State := s.place (requestOfTable nbits w)

end Sys2Proof.Machine
end

