-- ==== Sys2Proof/Machine/Wire.lean ====
section
/-! DEFINITION. What the outside sees: the output lines, `Sampled(TRACE)` (00_scope.md R11), and the pictures of
a byte and of a frame as event lists (30_encoding.md R91 to R93).  No rule of the block reads any of it. -/

namespace Sys2Proof.Machine

open Sys2Proof

/-- `rev8(b)`, the byte whose bit `k` is `b[7-k]` (00_scope.md R13). -/
def rev8 (b : Byte) : Byte := b.reverse

/-- What a line carries: its latch, and nothing before INIT has configured the lines as outputs
(10_state.md R23, R32, log 15). -/
def State.lineOut (s : State) (l : Line) : Option Bool :=
  if s.initd then some (s.lines.get l) else none

/-! ## The sampled stream (00_scope.md R11) -/

/-- The tracked level of each line; `none` is a level not yet set. -/
structure Tracked where
  clk : Option Bool
  data : Option Bool
  cs : Option Bool
  inv : Option Bool
  deriving DecidableEq, Repr

/-- No level is known before the first event. -/
def Tracked.start : Tracked := { clk := none, data := none, cs := none, inv := none }

/-- The tracked level of a line. -/
def Tracked.get (t : Tracked) : Line → Option Bool
  | .clk => t.clk
  | .data => t.data
  | .cs => t.cs
  | .inv => t.inv

/-- An event applied to the tracked levels: only `Set` changes one. -/
def Tracked.apply (t : Tracked) : Event → Tracked
  | .set .clk v => { t with clk := some v }
  | .set .data v => { t with data := some v }
  | .set .cs v => { t with cs := some v }
  | .set .inv v => { t with inv := some v }
  | .cfg _ => t
  | .wait _ => t

/-- The tracked levels after a list of events. -/
def Tracked.after : Tracked → List Event → Tracked
  | t, [] => t
  | t, e :: es => Tracked.after (t.apply e) es

/-- What the receiving device takes at one event: the tracked `DATA` level at `Set(CLK, 1)` when the
tracked `CLK` is 0 and the tracked `CS` is 1. -/
def Tracked.sample (t : Tracked) : Event → List (Option Bool)
  | .set .clk true => if t.clk = some false ∧ t.cs = some true then [t.data] else []
  | _ => []

/-- The bits taken over a list of events from given levels; `none` is an unknown bit (log 10). -/
def sampledFrom : Tracked → List Event → List (Option Bool)
  | _, [] => []
  | t, e :: es => t.sample e ++ sampledFrom (t.apply e) es

/-- `Sampled(TRACE)` (00_scope.md R11). -/
def sampled (es : List Event) : List (Option Bool) := sampledFrom .start es

/-! ## Pictures of bytes and frames -/

/-- The bit on `DATA` at the k-th rising edge of a byte: `b[7-k]` or `b[k]` (30_encoding.md R93). -/
def wireBit : Order → Byte → Nat → Bool
  | .msb, b, k => b.getLsbD (7 - k)
  | .lsb, b, k => b.getLsbD k

/-- The eight bits of a byte in time order (30_encoding.md R93). -/
def byteBits (o : Order) (b : Byte) : List Bool := (List.range 8).map (wireBit o b)

/-- The three events of one bit: clock low, data, clock high (40_transport.md R111). -/
def bitEvents (v : Bool) : List Event := [.set .clk false, .set .data v, .set .clk true]

/-- The 25 events of one byte (40_transport.md R111, R112). -/
def byteEvents (o : Order) (b : Byte) : List Event :=
  (byteBits o b).flatMap bitEvents ++ [.set .clk false]

/-- The events of a sequence of transport requests. -/
def bytesEvents (bs : List (Order × Byte)) : List Event := bs.flatMap fun ob => byteEvents ob.1 ob.2

/-- The bits of a sequence of transport requests, in time order. -/
def bytesBits (bs : List (Order × Byte)) : List Bool := bs.flatMap fun ob => byteBits ob.1 ob.2

/-- The bytes of a clear frame (30_encoding.md R92). -/
def clearBytes (p : Params) : List (Order × Byte) := [(.msb, p.cmdClear), (.msb, 0#8)]

/-- One line of a refresh frame, `row` counted from 0: address, data bytes, terminator
(30_encoding.md R92). -/
def lineBytes (p : Params) (m : Memory) (row : Nat) : List (Order × Byte) :=
  (.lsb, lineByte (row + 1)) ::
    ((List.range p.bytesPerLine).map fun c => (.lsb, Memory.get p m (row * p.bytesPerLine + c))) ++
    [(.msb, 0#8)]

/-- The bytes of a refresh frame (30_encoding.md R92). -/
def frameBytes (p : Params) (m : Memory) : List (Order × Byte) :=
  (.msb, p.cmdWrite) :: ((List.range p.H).flatMap (lineBytes p m) ++ [(.msb, 0#8)])

/-- Events between raising and lowering chip-select (42_refresh_sequencer.md R161). -/
def framed (es : List Event) : List Event :=
  [.set .cs true, .wait .settle] ++ es ++ [.wait .hold, .set .cs false, .wait .deselect]

/-! ## Counts (42_refresh_sequencer.md R169) and durations (70_reset_and_hazards.md R242) -/

/-- Is the event a `Set`? -/
def Event.isSet : Event → Bool
  | .set _ _ => true
  | _ => false

/-- Is the event a `Wait`? -/
def Event.isWait : Event → Bool
  | .wait _ => true
  | _ => false

/-- Is the event a `Cfg`? -/
def Event.isCfg : Event → Bool
  | .cfg _ => true
  | _ => false

/-- The microseconds a list of events waits at least: each `Wait(c)` is a lower bound of `c`
(70_reset_and_hazards.md R238). -/
def waitedMicros (p : Params) : List Event → Nat
  | [] => 0
  | .wait c :: es => p.micros c + waitedMicros p es
  | .set _ _ :: es => waitedMicros p es
  | .cfg _ :: es => waitedMicros p es

end Sys2Proof.Machine
end

