-- ==== Sys2Proof/Safety.lean ====
section
/-! DEFINITION. What a good state is: no fault recorded (60_exceptions.md R201), the idle levels, and the
invariant of every state a run or the reference machine goes through (10_state.md R34). -/

namespace Sys2Proof.Machine

open Sys2Proof

/-- No fault bit is set: "a premise of any claim about a run" (60_exceptions.md R201). -/
def State.clean (s : State) : Bool := s.fault == 0#4

/-- Between commands: the sequencer and the encoder idle, no request pending (10_state.md R30). -/
def State.ready (s : State) : Bool := !s.busy && s.tq.isNone

/-- All four lines low. -/
def Levels.low : Levels := { clk := false, data := false, cs := false, inv := false }

/-- Selected, and the other lines low. -/
def Levels.selected : Levels := { clk := false, data := false, cs := true, inv := false }

/-- The inversion line high, and the others low. -/
def Levels.pulsing : Levels := { clk := false, data := false, cs := false, inv := true }

/-- No transport request pending or running. -/
def State.quiet (s : State) : Prop := s.tst = none ∧ s.tq = none

/-- The encoder's transient ranges (10_state.md R30): `n` is 8 in `T_FINAL` and below 8 elsewhere. -/
def Transport.ok (t : Transport) : Prop :=
  match t.phase with
  | .final => t.n = 8
  | _ => t.n < 8

/-- A frame between its first and last byte: selected, a request pending or running, or else the clock
low. -/
def State.sending (s : State) : Prop :=
  s.lines.cs = true ∧ s.lines.inv = false ∧
    (s.tst = none → s.lines.clk = false) ∧
    ∀ t, s.tst = some t → s.tq = none ∧ t.ok

/-- The last byte of a frame is the dummy byte, so that `DATA` is low when it has been sent
(42_refresh_sequencer.md R171). -/
def State.sendingZero (s : State) : Prop :=
  s.sending ∧
    (s.tst = none → s.tq = none → s.lines.data = false) ∧
    (∀ q, s.tq = some q → TqWord.byte q = 0#8) ∧
    ∀ t, s.tst = some t → t.sr = 0#8 ∧ (t.phase = .high ∨ 1 ≤ t.n → s.lines.data = false)

/-- The lines and the encoder in each state of the sequencer. -/
def State.linesOk (s : State) : Prop :=
  match s.seq with
  | .idle => s.quiet ∧ (s.initd = true → s.lines = Levels.low)
  | .invUp => s.initd = true ∧ s.quiet ∧ s.lines = Levels.low
  | .invHold => s.initd = true ∧ s.quiet ∧ s.lines = Levels.pulsing
  | .invDown => s.initd = true ∧ s.quiet ∧ s.lines = Levels.pulsing
  | .frame f =>
    s.initd = true ∧
      match f.phase with
      | .csUp => s.quiet ∧ s.lines = Levels.low
      | .settle => s.quiet ∧ s.lines = Levels.selected
      | .cmd => s.quiet ∧ s.lines = Levels.selected
      | .clrDummy => s.sending
      | .addr => s.sending
      | .data => s.sending
      | .term => s.sending
      | .trail => s.sending
      | .hold => s.sendingZero
      | .csDown => s.quiet ∧ s.lines = Levels.selected
      | .desel => s.quiet ∧ s.lines = Levels.low

/-- The counters of a frame in each of its states (10_state.md R30, 42_refresh_sequencer.md R163). -/
def Frame.ok (p : Params) (f : Frame) : Prop :=
  match f.kind, f.phase with
  | .clear, .addr => False
  | .clear, .data => False
  | .clear, .term => False
  | .clear, .trail => False
  | .clear, _ => f.i = 0 ∧ f.cnt = 0 ∧ f.line = 0
  | .refresh, .clrDummy => False
  | .refresh, .csUp => f.i = 0 ∧ f.cnt = 0 ∧ f.line = 1
  | .refresh, .settle => f.i = 0 ∧ f.cnt = 0 ∧ f.line = 1
  | .refresh, .cmd => f.i = 0 ∧ f.cnt = 0 ∧ f.line = 1
  | .refresh, .addr =>
    1 ≤ f.line ∧ f.line ≤ p.H ∧ f.cnt = 0 ∧ f.i = (f.line - 1) * p.bytesPerLine
  | .refresh, .data =>
    1 ≤ f.line ∧ f.line ≤ p.H ∧ f.cnt < p.bytesPerLine ∧
      f.i = (f.line - 1) * p.bytesPerLine + f.cnt
  | .refresh, .term =>
    1 ≤ f.line ∧ f.line ≤ p.H ∧ f.cnt = p.bytesPerLine ∧ f.i = f.line * p.bytesPerLine
  | .refresh, _ => f.i = p.N ∧ f.cnt = 0 ∧ f.line = p.H + 1

/-- The transient counters of the sequencer, where they exist. -/
def State.countersOk (p : Params) (s : State) : Prop :=
  ∀ f, s.seq = .frame f → f.ok p

/-- The invariant of the machine (10_state.md R34 with the transient state of R30): `BUF` in canonical
form, the lines at the levels their place in a command gives them, the counters in range. -/
def State.Inv (p : Params) (s : State) : Prop :=
  Memory.wf p s.buf ∧ s.linesOk ∧ s.countersOk p

/-- Each latch holds the level its line was last driven to in the trace (10_state.md R20, R25). -/
def State.latchesFollowTrace (s : State) : Prop :=
  ∀ l v, (Tracked.start.after s.trace).get l = some v → s.lines.get l = v

end Sys2Proof.Machine
end

