-- ==== Sys2Proof/Certificates/Slice0/Obligations.lean ====
section
/-! DEFINITION. The statements for the provers.  `Claims` holds the words they are written in: the closed
forms and tables of spec/, written apart from the definitions the meanings use. -/

namespace Sys2Proof.Claims

open Sys2Proof Sys2Proof.Machine

/-- The byte of `BUF` at an index, of the instance the model is of. -/
def byteAt (s : State) (a : Nat) : Byte := Memory.get Config.params s.buf a

/-- The logical coordinates a pixel write accepts (41_pixel_address.md R132). -/
def Inside (p : Params) (x y : Int) : Prop := 0 ≤ x ∧ x < p.W ∧ 0 ≤ y ∧ y < p.H

/-- Column and row of the buffer in closed form (41_pixel_address.md R139). -/
def column (p : Params) : Rot → Int → Int → Int
  | .r0, x, _ => p.W - 1 - x
  | .r1, _, y => y
  | .r2, x, _ => x
  | .r3, _, y => p.W - 1 - y

def row (p : Params) : Rot → Int → Int → Int
  | .r0, _, y => y
  | .r1, x, _ => x
  | .r2, _, y => p.H - 1 - y
  | .r3, x, _ => p.H - 1 - x

/-- `Rotate` in closed form (41_pixel_address.md R139). -/
def rotated (p : Params) : Rot → Int → Int → Int × Int
  | .r0, x, y => (x, y)
  | .r1, x, y => (p.W - 1 - y, x)
  | .r2, x, y => (p.W - 1 - x, p.H - 1 - y)
  | .r3, x, y => (y, p.H - 1 - x)

/-- When the transform stays in the buffer, for coordinates inside (41_pixel_address.md R139). -/
def Fits (p : Params) (r : Rot) (x y : Int) : Prop :=
  r = .r0 ∨ r = .r2 ∨ (y < p.W ∧ x < p.H)

/-- The commands that check INITD: every one but INIT (60_exceptions.md R203). -/
def guarded : Instr → Bool
  | .init _ => false
  | .setrot _ => true
  | .setpix _ _ _ => true
  | .getpix _ _ => true
  | .clear => true
  | .refresh => true
  | .invpulse => true
  | .sendmsb _ => false
  | .sendlsb _ => false

/-- The formats of 30_encoding.md R81 to R84, each with its opcodes (R85) and its reserved bits 0. -/
def LegalShape (w : CmdWord) : Prop :=
  ((w.op = 1#8 ∨ w.op = 2#8) ∧ w.z = 0#6 ∧ w.x = 0#16 ∧ w.y = 0#16 ∧ w.color = 0#16) ∨
  (w.op = 3#8 ∧ w.z = 0#6 ∧ w.rot = 0#2) ∨
  (w.op = 4#8 ∧ w.z = 0#6 ∧ w.rot = 0#2 ∧ w.color = 0#16) ∨
  ((w.op = 5#8 ∨ w.op = 6#8 ∨ w.op = 7#8) ∧ w.extractLsb' 0 56 = 0#56)

/-- `B = 2 + H*(2 + W/8)`, the bytes of a refresh frame (42_refresh_sequencer.md R169). -/
def frameLength (p : Params) : Nat := 2 + p.H * (2 + p.W / 8)

/-- The row of 42_refresh_sequencer.md R169 for a host command: bytes sent, `Set`, `Wait` and `Cfg`
events. -/
def countRow (p : Params) : Instr → Nat × Nat × Nat × Nat
  | .init _ => (0, 4, 0, 4)
  | .clear => (2, 52, 3, 0)
  | .refresh => (frameLength p, 25 * frameLength p + 2, 3, 0)
  | .invpulse => (0, 2, 1, 0)
  | _ => (0, 0, 0, 0)

/-- A host command: not a transport request. -/
def hostCommand : Instr → Bool
  | .sendmsb _ => false
  | .sendlsb _ => false
  | _ => true

/-- An event that may stand inside a chip-select frame (42_refresh_sequencer.md R165). -/
def insideFrame : Event → Bool
  | .set .clk _ => true
  | .set .data _ => true
  | .wait _ => true
  | _ => false

end Sys2Proof.Claims

open Sys2Proof Sys2Proof.Machine Sys2Proof.Claims

/-! ## Encoding -/

/-- Decoding the encoding of a well-formed operation gives it back, every operand at every value. -/
def Obligations.DecodeEncodeRoundTrip : Prop :=
  ∀ i : Instr, i.wf = true → decodeRequest (encode i) = .instr i

/-- A legal command word is the encoding of what it decodes to, which is well-formed, and all 512
transport requests are legal and are the encoding of what they decode to. -/
def Obligations.EncodeDecodeRoundTrip : Prop :=
  (∀ (w : CmdWord) (i : Instr), decode w = .instr i → i.wf = true ∧ encode i = .command w) ∧
  ∀ t : TqWord, (decodeTq t).wf = true ∧ encode (decodeTq t) = .transport t

/-- 30_encoding.md R87, R206: which words are illegal, said in two ways, and what an illegal word does:
it sets `FAULT[0]` and nothing else, whatever `INITD` is. -/
def Obligations.IllegalWordsFaultAndDoNothingElse : Prop :=
  (∀ w : CmdWord, (∃ e, decode w = .illegal e) ↔ ¬ LegalShape w) ∧
  (∀ w : CmdWord, (∃ e, decode w = .illegal e) ↔ ∀ r ∈ commandTable, r.selects w = false) ∧
  ∀ (s : State) (w : CmdWord) (ws : List CmdWord), s.ready = true → s.cmds = w :: ws →
    ¬ LegalShape w → step s = .next { s with cmds := ws, fault := s.fault ||| 0b0001#4 }

/-- No two rows of the match/mask table match the same word (30_encoding.md R85). -/
def Obligations.TableRowsExclusive : Prop :=
  ∀ (w : CmdWord) (j k : Nat) (r q : TableRow), commandTable[j]? = some r →
    commandTable[k]? = some q → r.selects w = true → q.selects w = true → j = k

/-- Words written out bit by bit from 30_encoding.md R80 to R85 and R90 decode to what they stand for. -/
def Obligations.WordsOfEveryFormatDecode : Prop :=
  decode 0b00000001_000000_11_0000000000000000_0000000000000000_0000000000000000#64
    = .instr (.init .r3) ∧
  decode 0b00000010_000000_10_0000000000000000_0000000000000000_0000000000000000#64
    = .instr (.setrot .r2) ∧
  decode 0b00000011_000000_00_1111111111111111_0000000000000010_0000000000000001#64
    = .instr (.setpix (-1) 2 1#16) ∧
  decode 0b00000100_000000_00_0000000000000011_0000000000000101_0000000000000000#64
    = .instr (.getpix 3 5) ∧
  decode 0b00000101_000000_00_0000000000000000_0000000000000000_0000000000000000#64
    = .instr .clear ∧
  decode 0b00000110_000000_00_0000000000000000_0000000000000000_0000000000000000#64
    = .instr .refresh ∧
  decode 0b00000111_000000_00_0000000000000000_0000000000000000_0000000000000000#64
    = .instr .invpulse ∧
  decodeTq 0b0_10000000#9 = .sendmsb 0x80#8 ∧
  decodeTq 0b1_00000001#9 = .sendlsb 0x01#8

/-! ## Reset and the step -/

/-- What 10_state.md R32 gives the machine after reset.  The buffer's bytes and the lines' latches are
unspecified there: the model's free values (log 4, log 5), about which nothing is said but that the
buffer is canonical and the lines are not driven. -/
def Obligations.ResetLeavesTheStatedValues : Prop :=
  State.reset.rot = .r0 ∧ State.reset.initd = false ∧ State.reset.faultOut = 0b0000#4 ∧
  State.reset.trace = [] ∧ State.reset.ready = true ∧
  Memory.wf Config.params State.reset.buf ∧ ∀ l, State.reset.lineOut l = none

/-- The idle block runs the operation its request decodes to, the word taken and nothing else around
it: a pending transport request first, else the next command word, else it rests; a block in the middle
of a command takes the reference machine's next step.  (The host's words and the request as fields of
the state, and the step of a busy block, are the model's choice: log 1, log 2, log 7.) -/
def Obligations.StepRunsTheDecodedOperation : Prop :=
  (∀ (s : State) (w : CmdWord) (ws : List CmdWord) (i : Instr), s.ready = true → s.cmds = w :: ws →
    decode w = .instr i → step s = exec i { s with cmds := ws }) ∧
  (∀ (s : State) (t : TqWord), s.busy = false → s.tq = some t →
    step s = exec (decodeTq t) { s with tq := none }) ∧
  (∀ s : State, s.ready = true → s.cmds = [] → step s = .next s) ∧
  ∀ s : State, s.busy = true → step s = fsmStep Config.params s

/-! ## The commands -/

/-- 42_refresh_sequencer.md R160. -/
def Obligations.InitCommand : Prop :=
  ∀ (r : Rot) (s : State),
    exec (.init r) s =
      .next { s with
        rot := r
        initd := true
        lines := Levels.low
        trace := s.trace ++
          [.cfg .clk, .set .clk false, .cfg .data, .set .data false,
           .cfg .cs, .set .cs false, .cfg .inv, .set .inv false] }

/-- 41_pixel_address.md R130: `ROT` and nothing else, so no pixel already written moves (R140). -/
def Obligations.SetrotCommand : Prop :=
  ∀ (r : Rot) (s : State),
    (s.initd = true → exec (.setrot r) s = .next { s with rot := r }) ∧
    (s.initd = false → exec (.setrot r) s = .next { s with fault := s.fault ||| 0b0010#4 })

/-- 41_pixel_address.md R132. -/
def Obligations.SetpixOutOfBoundsIsSilent : Prop :=
  ∀ (x y : Int) (color : BitVec 16) (s : State), s.initd = true → ¬ Inside Config.params x y →
    exec (.setpix x y color) s = .next s

/-- 41_pixel_address.md R131, R135 in the closed forms of R139: an accepted pixel write puts the colour in
one bit of one byte, and every other bit of the buffer, and everything else, stays. -/
def Obligations.SetpixWritesOneBit : Prop :=
  ∀ (x y : Int) (color : BitVec 16) (s : State), s.initd = true → Inside Config.params x y →
    Fits Config.params s.rot x y → Memory.wf Config.params s.buf →
    ∃ m : Memory, exec (.setpix x y color) s = .next { s with buf := m } ∧
      ∀ (a j : Nat), j < 8 →
        (Memory.get Config.params m a).getLsbD j =
          if (a : Int) = (row Config.params s.rot x y * Config.params.W +
                column Config.params s.rot x y) / 8 ∧
              (j : Int) = column Config.params s.rot x y % 8
          then decide (color ≠ 0#16) else (byteAt s a).getLsbD j

/-- 41_pixel_address.md R136, on any instance (the one the model is of among them): for coordinates inside,
the fault is raised exactly when `ROT` is 1 or 3 and (`Y >= W` or `X >= H`), and then nothing else
happens. -/
def Obligations.SetpixXformRange : Prop :=
  (∀ (p : Params) (x y : Int) (c : Bool) (s : State), s.initd = true → Inside p x y →
    (((s.rot = .r1 ∨ s.rot = .r3) ∧ (p.W ≤ y ∨ p.H ≤ x)) →
      setpixOn p x y c s = .next { s with fault := s.fault ||| 0b1000#4 }) ∧
    (¬ ((s.rot = .r1 ∨ s.rot = .r3) ∧ (p.W ≤ y ∨ p.H ≤ x)) →
      ∃ m : Memory, setpixOn p x y c s = .next { s with buf := m })) ∧
  ∀ (x y : Int) (color : BitVec 16) (s : State),
    exec (.setpix x y color) s = setpixOn Config.params x y (decide (color ≠ 0#16)) s

/-- The one byte a pixel write stores to, at the index its meaning computes: every other byte reads as
before, whatever the operands and the state. -/
def Obligations.SetpixFrame : Prop :=
  ∀ (x y : Int) (color : BitVec 16) (s t : State), exec (.setpix x y color) s = .next t →
    (∀ a : Nat,
      byteIndex Config.params (bufferCoords Config.params s.rot x y).1
        (bufferCoords Config.params s.rot x y).2 = a →
      ∀ b, b ≠ a → byteAt t b = byteAt s b) ∧
    t.rot = s.rot ∧ t.initd = s.initd ∧ t.lines = s.lines ∧ t.trace = s.trace ∧ t.seq = s.seq ∧
    t.tst = s.tst ∧ t.tq = s.tq ∧ t.cmds = s.cmds

/-- A SETPIX repeated changes nothing more, written, silent or faulting: writing the value a bit already
has changes nothing (20_memory.md R56) and a fault bit set again stays (60_exceptions.md R209). -/
def Obligations.SetpixTwiceIsOnce : Prop :=
  ∀ (x y : Int) (color : BitVec 16) (s t : State), Memory.wf Config.params s.buf →
    exec (.setpix x y color) s = .next t → exec (.setpix x y color) t = .next t

/-- 41_pixel_address.md R137: always a fault, never a wait, operands ignored. -/
def Obligations.GetpixIsUnsupported : Prop :=
  ∀ (x y : Int) (s : State),
    (s.initd = true → exec (.getpix x y) s = .next { s with fault := s.fault ||| 0b0100#4 }) ∧
    (s.initd = false → exec (.getpix x y) s = .next { s with fault := s.fault ||| 0b0010#4 })

/-- 42_refresh_sequencer.md R162. -/
def Obligations.ClearCommand : Prop :=
  ∀ s : State,
    (s.initd = true → Memory.wf Config.params s.buf →
      ∃ m : Memory, (∀ a, a < Config.params.N → Memory.get Config.params m a = 0x00#8) ∧
        (∀ a, Config.params.N ≤ a → Memory.get Config.params m a = byteAt s a) ∧
        ∃ es : List Event, es.length = 55 ∧
          es = [.set .cs true, .wait .settle] ++ byteEvents .msb Config.params.cmdClear ++
            byteEvents .msb 0x00#8 ++ [.wait .hold, .set .cs false, .wait .deselect] ∧
          (∀ tr, sampledFrom tr es =
            (byteBits .msb Config.params.cmdClear ++ List.replicate 8 false).map some) ∧
          exec .clear s =
            .next { s with
              buf := m
              lines := { s.lines with clk := false, data := false, cs := false }
              trace := s.trace ++ es }) ∧
    (s.initd = false → exec .clear s = .next { s with fault := s.fault ||| 0b0010#4 })

/-- 42_refresh_sequencer.md R163: the loop of the pseudocode sends the frame of 30_encoding.md R92 and
changes nothing but the latches. -/
def Obligations.RefreshCommand : Prop :=
  ∀ s : State,
    (s.initd = true →
      exec .refresh s =
        .next { s with
          lines := { s.lines with clk := false, data := false, cs := false }
          trace := s.trace ++ [.set .cs true, .wait .settle] ++
            bytesEvents (frameBytes Config.params s.buf) ++
            [.wait .hold, .set .cs false, .wait .deselect] }) ∧
    (s.initd = false → exec .refresh s = .next { s with fault := s.fault ||| 0b0010#4 })

/-- The bytes of a refresh frame by position (30_encoding.md R91, R92, 42_refresh_sequencer.md R170): every
line address once, in order, 1-based, not truncated, LSB-first; the data bytes in buffer order,
LSB-first; the terminators and the trailing byte `0x00`, MSB-first. -/
def Obligations.RefreshFrameByPosition : Prop :=
  ∀ (p : Params) (m : Memory),
    (frameBytes p m).length = frameLength p ∧
    (frameBytes p m)[0]? = some (.msb, p.cmdWrite) ∧
    (∀ r, r < p.H →
      (∃ b : Byte, (frameBytes p m)[1 + r * (2 + p.W / 8)]? = some (.lsb, b) ∧ b.toNat = r + 1) ∧
      (∀ c, c < p.W / 8 →
        (frameBytes p m)[1 + r * (2 + p.W / 8) + 1 + c]? =
          some (.lsb, Memory.get p m (r * (p.W / 8) + c))) ∧
      (frameBytes p m)[1 + r * (2 + p.W / 8) + 1 + p.W / 8]? = some (.msb, 0x00#8)) ∧
    (frameBytes p m)[frameLength p - 1]? = some (.msb, 0x00#8)

/-- The receiver takes exactly the bits of the frame's bytes, in time order, whatever was on the wire
before (30_encoding.md R93, 40_transport.md R118).  `some` is a known level (log 10). -/
def Obligations.RefreshSampledBits : Prop :=
  ∀ s : State, s.initd = true →
    ∃ t : State, exec .refresh s = .next t ∧
      sampled t.trace =
        sampled s.trace ++
          ((frameBytes Config.params s.buf).flatMap fun ob =>
            (List.range 8).map fun k =>
              some (match ob.1 with
                | .msb => ob.2.getLsbD (7 - k)
                | .lsb => ob.2.getLsbD k))

/-- 42_refresh_sequencer.md R164. -/
def Obligations.InvpulseCommand : Prop :=
  ∀ s : State,
    (s.initd = true →
      exec .invpulse s =
        .next { s with
          lines := { s.lines with inv := false }
          trace := s.trace ++ [.set .inv true, .wait .inv, .set .inv false] }) ∧
    (∀ t, exec .invpulse s = .next t → sampled t.trace = sampled s.trace) ∧
    (s.initd = false → exec .invpulse s = .next { s with fault := s.fault ||| 0b0010#4 })

/-- 40_transport.md R111: 25 events, the bits from the most significant to the least. -/
def Obligations.SendmsbRequest : Prop :=
  ∀ (b : Byte) (s : State), ∃ es : List Event, es.length = 25 ∧
    es = ((List.range 8).flatMap fun n =>
        [.set .clk false, .set .data (b.getLsbD (7 - n)), .set .clk true]) ++ [.set .clk false] ∧
    exec (.sendmsb b) s =
      .next { s with
        lines := { s.lines with clk := false, data := b.getLsbD 0 }
        trace := s.trace ++ es }

/-- 40_transport.md R112: 25 events, the bits from the least significant to the most. -/
def Obligations.SendlsbRequest : Prop :=
  ∀ (b : Byte) (s : State), ∃ es : List Event, es.length = 25 ∧
    es = ((List.range 8).flatMap fun n =>
        [.set .clk false, .set .data (b.getLsbD n), .set .clk true]) ++ [.set .clk false] ∧
    exec (.sendlsb b) s =
      .next { s with
        lines := { s.lines with clk := false, data := b.getLsbD 7 }
        trace := s.trace ++ es }

/-- 40_transport.md R118, its five laws. -/
def Obligations.TransportLaws : Prop :=
  ∀ b : Byte,
    (∀ s, exec (.sendlsb b) s = exec (.sendmsb (rev8 b)) s) ∧
    (∀ s t, exec (.sendmsb b) s = .next t →
      ((Tracked.start.after s.trace).cs = some true →
        sampled t.trace = sampled s.trace ++ (List.range 8).map fun k => some (b.getLsbD (7 - k))) ∧
      ((Tracked.start.after s.trace).cs = some false → sampled t.trace = sampled s.trace)) ∧
    (∀ s t, exec (.sendlsb b) s = .next t →
      ((Tracked.start.after s.trace).cs = some true →
        sampled t.trace = sampled s.trace ++ (List.range 8).map fun k => some (b.getLsbD k)) ∧
      ((Tracked.start.after s.trace).cs = some false → sampled t.trace = sampled s.trace)) ∧
    (∀ (o : Order) (tr : Tracked) (pre post : List Event) (v : Bool),
      byteEvents o b = pre ++ .set .data v :: post → (tr.after pre).clk = some false) ∧
    (b = rev8 b → ∀ s, exec (.sendmsb b) s = exec (.sendlsb b) s)

/-- 40_transport.md R110: the encoder writes only `CLK` and `DATA` and reads only its request. -/
def Obligations.TransportReadsOnlyItsRequest : Prop :=
  ∀ (o : Order) (b : Byte), ∃ (es : List Event) (v : Bool), ∀ s : State,
    exec (transportInstr o b) s =
      .next { s with
        lines := { s.lines with clk := false, data := v }
        trace := s.trace ++ es }

/-! ## Faults -/

/-- 60_exceptions.md R203: before INIT every other command sets `FAULT[1]` and does nothing else. -/
def Obligations.NotInitBeforeInit : Prop :=
  ∀ (i : Instr) (s : State), guarded i = true → s.initd = false →
    exec i s = .next { s with fault := s.fault ||| 0b0010#4 }

/-- 60_exceptions.md R201, R207: a command either raises no fault, and then leaves `FAULT` as it was, or
raises one, and then does nothing but set that one bit. -/
def Obligations.FaultsArePrecise : Prop :=
  ∀ (i : Instr) (s t : State), exec i s = .next t →
    t.fault = s.fault ∨ ∃ k, k < 4 ∧ t = { s with fault := s.fault ||| 1#4 <<< k }

/-- 60_exceptions.md R207, from the command word on: decode, then INITD, then the command's own cause, and
one fault at most.  SETPIX's checks are said of any instance, the one the model is of among them: an
out-of-bounds one is silent after INIT and reports NOT_INIT before it. -/
def Obligations.FaultPriority : Prop :=
  (∀ (s : State) (w : CmdWord) (ws : List CmdWord), s.ready = true → s.cmds = w :: ws →
    ((∃ e, decode w = .illegal e) →
      step s = .next { s with cmds := ws, fault := s.fault ||| 0b0001#4 }) ∧
    (∀ i, decode w = .instr i → guarded i = true → s.initd = false →
      step s = .next { s with cmds := ws, fault := s.fault ||| 0b0010#4 }) ∧
    (∀ x y, decode w = .instr (.getpix x y) → s.initd = true →
      step s = .next { s with cmds := ws, fault := s.fault ||| 0b0100#4 }) ∧
    (∀ x y c, decode w = .instr (.setpix x y c) →
      step s = setpixOn Config.params x y (decide (c ≠ 0#16)) { s with cmds := ws }) ∧
    ∀ t, step s = .next t → t.fault = s.fault ∨ ∃ k, k < 4 ∧ t.fault = s.fault ||| 1#4 <<< k) ∧
  ∀ (p : Params) (x y : Int) (c : Bool) (s : State),
    (s.initd = false → setpixOn p x y c s = .next { s with fault := s.fault ||| 0b0010#4 }) ∧
    (s.initd = true → ¬ Inside p x y → setpixOn p x y c s = .next s) ∧
    (s.initd = true → Inside p x y → ¬ Fits p s.rot x y →
      setpixOn p x y c s = .next { s with fault := s.fault ||| 0b1000#4 }) ∧
    (s.initd = true → Inside p x y → Fits p s.rot x y →
      ∃ m : Memory, setpixOn p x y c s = .next { s with buf := m })

/-- 60_exceptions.md R201: "The block does not halt".  Every operation completes, from every state. -/
def Obligations.EveryOperationCompletes : Prop :=
  ∀ (i : Instr) (s : State), ∃ t : State, exec i s = .next t

/-! ## Who writes what, who reads what -/

/-- 10_state.md R20, the column "written by". -/
def Obligations.OnlyTheListedWriters : Prop :=
  ∀ (i : Instr) (s t : State), exec i s = .next t →
    (t.buf ≠ s.buf → i = .clear ∨ ∃ x y c, i = .setpix x y c) ∧
    (t.rot ≠ s.rot → ∃ r, t.rot = r ∧ (i = .init r ∨ i = .setrot r)) ∧
    (t.initd ≠ s.initd → t.initd = true ∧ ∃ r, i = .init r) ∧
    (t.lines.clk ≠ s.lines.clk ∨ t.lines.data ≠ s.lines.data →
      (∃ r, i = .init r) ∨ i = .clear ∨ i = .refresh ∨ (∃ b, i = .sendmsb b) ∨ ∃ b, i = .sendlsb b) ∧
    (t.lines.cs ≠ s.lines.cs → (∃ r, i = .init r) ∨ i = .clear ∨ i = .refresh) ∧
    (t.lines.inv ≠ s.lines.inv → (∃ r, i = .init r) ∨ i = .invpulse) ∧
    t.seq = s.seq ∧ t.tst = s.tst ∧ t.tq = s.tq ∧ t.cmds = s.cmds

/-- 10_state.md R31, R34: the trace only grows, and no rule reads it. -/
def Obligations.TraceGrowsAndIsNotRead : Prop :=
  ∀ s t : State, step s = .next t →
    ∃ es : List Event, t.trace = s.trace ++ es ∧
      ∀ tr, step { s with trace := tr } = .next { t with trace := tr ++ es }

/-- 10_state.md R24: no command reads `FAULT`, so a set bit does not stop later commands. -/
def Obligations.FaultIsNotRead : Prop :=
  ∀ s t : State, step s = .next t →
    ∃ bits : BitVec 4, t.fault = s.fault ||| bits ∧
      ∀ f, step { s with fault := f } = .next { t with fault := f ||| bits }

/-- 10_state.md R20: no rule of the block reads the latches. -/
def Obligations.LatchesAreNotRead : Prop :=
  ∀ (s t : State) (L : Levels), step s = .next t →
    ∃ M : Levels, step { s with lines := L } = .next { t with lines := M }

/-- 10_state.md R34: once set, `INITD` and each `FAULT` bit stay set; so a run that ends clean was clean
throughout. -/
def Obligations.InitdAndFaultAreSticky : Prop :=
  ∀ s t : State, step s = .next t →
    (s.initd = true → t.initd = true) ∧
    (∀ k, s.fault.getLsbD k = true → t.fault.getLsbD k = true) ∧
    (t.clean = true → s.clean = true)

/-! ## The address generator -/

/-- 41_pixel_address.md R139: the closed forms, when they stay in the buffer, that the map is one-to-one and
no two accepted pixels share a bit; for a square panel the map fills the square. -/
def Obligations.TransformClosedForms : Prop :=
  (∀ (p : Params) (r : Rot) (x y : Int),
    rotate p r x y = rotated p r x y ∧ bufferCoords p r x y = (column p r x y, row p r x y)) ∧
  (∀ (p : Params) (r : Rot) (x y : Int), Inside p x y →
    (inBuffer p (column p r x y) (row p r x y) = true ↔ Fits p r x y)) ∧
  (∀ (p : Params) (r : Rot) (x y x' y' : Int),
    bufferCoords p r x y = bufferCoords p r x' y' → x = x' ∧ y = y') ∧
  (∀ (p : Params) (r : Rot) (x y x' y' : Int), Inside p x y → Fits p r x y → Inside p x' y' →
    Fits p r x' y' →
    byteIndex p (column p r x y) (row p r x y) = byteIndex p (column p r x' y') (row p r x' y') →
    bitIndex (column p r x y) = bitIndex (column p r x' y') → x = x' ∧ y = y') ∧
  ∀ (p : Params) (r : Rot) (xb yb : Int), p.W = p.H → Inside p xb yb →
    ∃ x y, Inside p x y ∧ bufferCoords p r x y = (xb, yb)

/-- 41_pixel_address.md R142: rotation 0 is the identity, rotation 2 its own inverse, and rotations 1 and 3
are inverse up to the difference of `W` and `H`, so exactly when `W = H`. -/
def Obligations.RotationLaws : Prop :=
  ∀ (p : Params) (x y : Int),
    rotate p .r0 x y = (x, y) ∧
    rotate p .r2 (rotate p .r2 x y).1 (rotate p .r2 x y).2 = (x, y) ∧
    rotate p .r3 (rotate p .r1 x y).1 (rotate p .r1 x y).2 = (x, y + p.H - p.W) ∧
    rotate p .r1 (rotate p .r3 x y).1 (rotate p .r3 x y).2 = (x + p.W - p.H, y) ∧
    (rotate p .r3 (rotate p .r1 x y).1 (rotate p .r1 x y).2 = (x, y) ↔ p.W = p.H) ∧
    (rotate p .r1 (rotate p .r3 x y).1 (rotate p .r3 x y).2 = (x, y) ↔ p.W = p.H)

/-- 20_memory.md R51: the byte and bit of a place in the buffer, their range, and that different places
have different bits. -/
def Obligations.PixelLayout : Prop :=
  ∀ (p : Params) (x y : Int), inBuffer p x y = true →
    (byteIndex p x y : Int) = y * (p.W / 8 : Nat) + x / 8 ∧ (bitIndex x : Int) = x % 8 ∧
    byteIndex p x y < p.N ∧ bitIndex x < 8 ∧
    ∀ x' y' : Int, inBuffer p x' y' = true → byteIndex p x' y' = byteIndex p x y →
      bitIndex x' = bitIndex x → x' = x ∧ y' = y

/-! ## Frames and the wire -/

/-- 42_refresh_sequencer.md R165: what CLEAR and REFRESH append is one chip-select frame holding only waits
and `CLK` and `DATA` levels; no other operation raises `CS`. -/
def Obligations.FramesExcludeEachOther : Prop :=
  ∀ (i : Instr) (s t : State), exec i s = .next t →
    ∃ es : List Event, t.trace = s.trace ++ es ∧
      ((i = .clear ∨ i = .refresh) → s.initd = true →
        ∃ inner, es = .set .cs true :: inner ++ [.set .cs false, .wait .deselect] ∧
          ∀ e ∈ inner, insideFrame e = true) ∧
      (¬ (i = .clear ∨ i = .refresh) → .set .cs true ∉ es)

/-- 42_refresh_sequencer.md R169, the table of counts. -/
def Obligations.EventCounts : Prop :=
  (∀ (i : Instr) (s : State), hostCommand i = true → (guarded i = true → s.initd = true) →
    ∃ (t : State) (es : List Event), exec i s = .next t ∧ t.trace = s.trace ++ es ∧
      es.countP (fun e => e = .set .clk true) = 8 * (countRow Config.params i).1 ∧
      (∀ tr, (sampledFrom tr es).length = 8 * (countRow Config.params i).1) ∧
      es.countP Event.isSet = (countRow Config.params i).2.1 ∧
      es.countP Event.isWait = (countRow Config.params i).2.2.1 ∧
      es.countP Event.isCfg = (countRow Config.params i).2.2.2 ∧
      es.length = (countRow Config.params i).2.1 + (countRow Config.params i).2.2.1 +
        (countRow Config.params i).2.2.2) ∧
  (∀ (i : Instr) (s : State), guarded i = true → s.initd = false →
    ∃ t : State, exec i s = .next t ∧ t.trace = s.trace) ∧
  ∀ (s : State) (w : CmdWord) (ws : List CmdWord), s.ready = true → s.cmds = w :: ws →
    (∃ e, decode w = .illegal e) → ∃ t : State, step s = .next t ∧ t.trace = s.trace

/-- 70_reset_and_hazards.md R242: the waits of a command, in microseconds, and its line writes. -/
def Obligations.CommandWaits : Prop :=
  ∀ s : State, s.initd = true →
    (∃ t es, exec .clear s = .next t ∧ t.trace = s.trace ++ es ∧
      waitedMicros Config.params es = Config.params.micros .settle + Config.params.micros .hold +
        Config.params.micros .deselect ∧ es.countP Event.isSet = 52) ∧
    (∃ t es, exec .refresh s = .next t ∧ t.trace = s.trace ++ es ∧
      waitedMicros Config.params es = Config.params.micros .settle + Config.params.micros .hold +
        Config.params.micros .deselect ∧
      es.countP Event.isSet = 25 * frameLength Config.params + 2) ∧
    ∃ t es, exec .invpulse s = .next t ∧ t.trace = s.trace ++ es ∧
      waitedMicros Config.params es = Config.params.micros .inv ∧ es.countP Event.isSet = 2

/-- 42_refresh_sequencer.md R171: the line levels when a command completes. -/
def Obligations.LevelsAfterCommands : Prop :=
  ∀ (i : Instr) (s t : State), exec i s = .next t →
    ((∃ r, i = .init r) → t.lines = Levels.low) ∧
    ((i = .clear ∨ i = .refresh) → s.initd = true →
      t.lines.clk = false ∧ t.lines.data = false ∧ t.lines.cs = false ∧ t.lines.inv = s.lines.inv) ∧
    (i = .invpulse → s.initd = true → t.lines = { s.lines with inv := false }) ∧
    (t.fault ≠ s.fault → t.lines = s.lines)

/-- A pixel written reaches the wire: after an accepted SETPIX the next REFRESH puts its colour at the
pixel's place in the sampled stream, 8 bits of command, then a line every `16 + W` bits, each with 8
bits of address before its pixels (41_pixel_address.md R139, 20_memory.md R53, R62, 30_encoding.md R93). -/
def Obligations.PixelReachesTheWire : Prop :=
  ∀ (x y : Int) (color : BitVec 16) (s : State), s.initd = true → Inside Config.params x y →
    Fits Config.params s.rot x y → Memory.wf Config.params s.buf →
    ∃ (t u : State) (bits : List (Option Bool)),
      exec (.setpix x y color) s = .next t ∧ exec .refresh t = .next u ∧
      sampled u.trace = sampled s.trace ++ bits ∧
      bits[8 + (row Config.params s.rot x y).toNat * (16 + Config.params.W) + 8 +
          (column Config.params s.rot x y).toNat]? = some (some (decide (color ≠ 0#16)))

/-! ## The reference machines -/

/-- 40_transport.md R117: from `T_IDLE` with a request, the encoder's state machine does what the request
does and is back in `T_IDLE`, and was not before. -/
def Obligations.EncoderMachineRefinesRequest : Prop :=
  ∀ (p : Params) (s : State) (q : TqWord), s.tst = none → s.tq = some q →
    ∃ (k : Nat) (t : State), fsmRun p k s = .next t ∧ exec (decodeTq q) { s with tq := none } = .next t ∧
      t.tst = none ∧ t.tq = none ∧
      ∀ j, j < k → ∃ u, fsmRun p j s = .next u ∧ (u.tst ≠ none ∨ u.tq ≠ none)

/-- 42_refresh_sequencer.md R168: the reference machine started by an operation returns to idle after
finitely many steps, not before, in the very state the operation leaves, so with the very events it
appends; and no command word is taken while a command is under way. -/
def Obligations.SequencerMachineRefinesCommand : Prop :=
  (∀ (i : Instr) (s : State), s.ready = true →
    ∃ (k : Nat) (u t : State), fsmBegin Config.params i s = .next u ∧
      fsmRun Config.params k u = .next t ∧ exec i s = .next t ∧ t.ready = true ∧
      ∀ j, j < k → ∃ v, fsmRun Config.params j u = .next v ∧ v.ready = false) ∧
  ∀ s t : State, s.busy = true → step s = .next t → t.cmds = s.cmds

/-- 40_transport.md R117, 42_refresh_sequencer.md R167: a step of the reference machine emits at most one
event and touches neither `ROT`, `INITD`, `FAULT` nor `BUF`. -/
def Obligations.MachineStepEmitsAtMostOneEvent : Prop :=
  ∀ (p : Params) (s t : State), fsmStep p s = .next t →
    (t.trace = s.trace ∨ ∃ e, t.trace = s.trace ++ [e]) ∧
    t.rot = s.rot ∧ t.initd = s.initd ∧ t.fault = s.fault ∧ t.buf = s.buf ∧ t.cmds = s.cmds

/-! ## Invariants -/

/-- The buffer's canonical form (the model's, log 4) is kept by every step, whatever else holds of the
state. -/
def Obligations.MemoryFormKeptByStep : Prop :=
  ∀ s t : State, Memory.wf Config.params s.buf → step s = .next t → Memory.wf Config.params t.buf

/-- Each latch holds the level its line was last driven to, after every step (10_state.md R20, R25). -/
def Obligations.LatchesFollowTheTrace : Prop :=
  ∀ s t : State, s.latchesFollowTrace → step s = .next t → t.latchesFollowTrace

/-- The invariant holds at reset. -/
def Obligations.ResetMeetsTheInvariant : Prop :=
  State.reset.Inv Config.params ∧ State.reset.latchesFollowTrace

/-- The invariant is kept by every step, atomic or of the reference machine (10_state.md R34; the
transient state as fields is the model's choice, log 7 to log 9). -/
def Obligations.InvariantKeptByStep : Prop :=
  ∀ s t : State, s.Inv Config.params → step s = .next t → t.Inv Config.params

/-- From the invariant no step stops: no access leaves the buffer and nothing is refused
(20_memory.md R50, 60_exceptions.md R201). -/
def Obligations.StepNeverStops : Prop :=
  ∀ s : State, s.Inv Config.params → ∃ t : State, step s = .next t

/-- Every run of every list of command words (00_scope.md R10; as a field of the state, log 1): it never stops, it takes one word a step,
between commands the sequencer is idle, and once INIT has run all four lines are low (42_refresh_sequencer.md R171). -/
def Obligations.RunsCompleteWithLinesLow : Prop :=
  ∀ (ws : List CmdWord) (k : Nat),
    ∃ s : State, core.run k { State.reset with cmds := ws } = .next s ∧ s.cmds = ws.drop k ∧
      s.ready = true ∧ Memory.wf Config.params s.buf ∧ (s.initd = true → s.lines = Levels.low)
end

