-- ==== Sys2Proof/Laws/Config.lean ====
section
/-! SUPPORT. `Params` is exactly the set of legal configurations of 00_scope.md R6 to R8. -/

namespace Sys2Proof.Laws.Config

open Sys2Proof

theorem bytesPerLine_pos (p : Params) : 1 ≤ p.bytesPerLine := by
  simp only [Params.bytesPerLine]; omega

theorem W_eq (p : Params) : p.W = 8 * p.bytesPerLine := rfl

/-- `W mod 8 = 0` (00_scope.md R6). -/
theorem W_mod_eight (p : Params) : p.W % 8 = 0 := by simp [Params.W]

/-- `W ≥ 8` (00_scope.md R6). -/
theorem W_ge_eight (p : Params) : 8 ≤ p.W := by
  have := bytesPerLine_pos p
  simp only [Params.W]; omega

/-- `1 ≤ H` (00_scope.md R6). -/
theorem H_pos (p : Params) : 1 ≤ p.H := by simp [Params.H]

/-- `H ≤ 255` (00_scope.md R6). -/
theorem H_le (p : Params) : p.H ≤ 255 := by
  have := p.extraLines.isLt
  simp only [Params.H]; omega

/-- `N = H * (W/8)` (00_scope.md R6, 42_refresh_sequencer.md R168). -/
theorem N_eq (p : Params) : p.N = p.H * p.bytesPerLine := by
  simp only [Params.N, Params.W]
  rw [Nat.mul_assoc, Nat.mul_div_cancel_left _ (by decide), Nat.mul_comm]

theorem N_pos (p : Params) : 1 ≤ p.N := by
  rw [N_eq]; exact Nat.mul_pos (H_pos p) (bytesPerLine_pos p)

/-- `CMD_WRITE ≠ CMD_CLEAR` (00_scope.md R7). -/
theorem cmdClear_ne (p : Params) : p.cmdClear ≠ p.cmdWrite := by
  have h := p.cmdGap.isLt
  intro e
  have := congrArg BitVec.toNat e
  have hw := p.cmdWrite.isLt
  simp only [Params.cmdClear, BitVec.toNat_add, BitVec.toNat_ofNat] at this
  omega

/-- Every delay is 1, 2 or 3 microseconds (00_scope.md R8). -/
theorem micros_range (p : Params) (c : Delay) : 1 ≤ p.micros c ∧ p.micros c ≤ 3 := by
  have := p.settleExtra.isLt
  have := p.holdExtra.isLt
  have := p.deselectExtra.isLt
  have := p.invExtra.isLt
  cases c <;> simp only [Params.micros] <;> omega

/-- Every legal configuration, with every power-on image, is a `Params` (00_scope.md R6 to R8,
10_state.md R32). -/
theorem every_legal_configuration (W H : Nat) (cw cc : Byte) (d : Delay → Nat) (rb : Nat → Byte)
    (rl : Line → Bool) (hW : W % 8 = 0) (hW8 : 8 ≤ W) (hH : 1 ≤ H ∧ H ≤ 255) (hc : cw ≠ cc)
    (hd : ∀ c, 1 ≤ d c ∧ d c ≤ 3) :
    ∃ p : Params, p.W = W ∧ p.H = H ∧ p.cmdWrite = cw ∧ p.cmdClear = cc ∧ p.micros = d ∧
      p.resetByte = rb ∧ p.resetLevel = rl := by
  have hs := hd .settle
  have hh := hd .hold
  have hx := hd .deselect
  have hi := hd .inv
  have hcw := cw.isLt
  have hcc := cc.isLt
  have hne : cw.toNat ≠ cc.toNat := fun e => hc (BitVec.eq_of_toNat_eq e)
  refine ⟨{ extraGroups := W / 8 - 1
            extraLines := ⟨H - 1, by omega⟩
            cmdWrite := cw
            cmdGap := ⟨(cc.toNat + 256 - cw.toNat) % 256 - 1, by omega⟩
            settleExtra := ⟨d .settle - 1, by omega⟩
            holdExtra := ⟨d .hold - 1, by omega⟩
            deselectExtra := ⟨d .deselect - 1, by omega⟩
            invExtra := ⟨d .inv - 1, by omega⟩
            resetByte := rb
            resetLevel := rl }, ?_, ?_, rfl, ?_, ?_, rfl, rfl⟩
  · simp only [Params.W, Params.bytesPerLine]; omega
  · simp only [Params.H]; omega
  · apply BitVec.eq_of_toNat_eq
    simp only [Params.cmdClear, BitVec.toNat_add, BitVec.toNat_ofNat]
    omega
  · funext c
    cases c <;> simp only [Params.micros] <;> omega

end Sys2Proof.Laws.Config
end

