-- ==== Sys2Proof/Laws/Encoding.lean ====
section
/-! SUPPORT. The fields of an assembled word, and the small round trips of the operand forms. -/

namespace Sys2Proof

/-! ## Operand forms -/

@[simp] theorem Rot.ofBits_toBits (r : Rot) : Rot.ofBits r.toBits = r := by cases r <;> rfl

@[simp] theorem Rot.toBits_ofBits (v : BitVec 2) : (Rot.ofBits v).toBits = v := by
  revert v; decide

@[simp] theorem Order.ofBit_toBit (o : Order) : Order.ofBit o.toBit = o := by cases o <;> rfl

@[simp] theorem Order.toBit_ofBit (b : Bool) : (Order.ofBit b).toBit = b := by cases b <;> rfl

/-- A coordinate in range survives its 16-bit field (30_encoding.md R86). -/
theorem toInt_ofInt_of_coordOk {v : Int} (h : coordOk v = true) : (BitVec.ofInt 16 v).toInt = v := by
  simp only [coordOk, Bool.and_eq_true, decide_eq_true_eq] at h
  rw [BitVec.toInt_ofInt]
  exact Int.bmod_eq_of_le (by omega) (by omega)

/-- A 16-bit field reads as a coordinate in range (30_encoding.md R86). -/
theorem coordOk_toInt (v : BitVec 16) : coordOk v.toInt = true := by
  have h1 := BitVec.le_toInt v
  have h2 := BitVec.toInt_lt (x := v)
  simp only [coordOk, Bool.and_eq_true, decide_eq_true_eq]
  omega

/-! ## The command word's fields (30_encoding.md R80) -/

section Fields

variable (op : BitVec 8) (rot : BitVec 2) (x y color : BitVec 16)

@[simp] theorem cmdWord_op : CmdWord.op (cmdWord op rot x y color) = op := by
  ext i hi
  rw [CmdWord.op, cmdWord, BitVec.getElem_extractLsb']
  rw [BitVec.getLsbD_append, if_neg (by omega), BitVec.getLsbD_append, if_neg (by omega),
    BitVec.getLsbD_append, if_neg (by omega), BitVec.getLsbD_append, if_neg (by omega),
    BitVec.getLsbD_append, if_neg (by omega)]
  rw [← BitVec.getLsbD_eq_getElem]
  congr 1
  omega

@[simp] theorem cmdWord_z : CmdWord.z (cmdWord op rot x y color) = 0#6 := by
  ext i hi
  rw [CmdWord.z, cmdWord, BitVec.getElem_extractLsb']
  rw [BitVec.getLsbD_append, if_neg (by omega), BitVec.getLsbD_append, if_neg (by omega),
    BitVec.getLsbD_append, if_neg (by omega), BitVec.getLsbD_append, if_neg (by omega),
    BitVec.getLsbD_append, if_pos (by omega)]
  rw [← BitVec.getLsbD_eq_getElem]
  congr 1
  omega

@[simp] theorem cmdWord_rot : CmdWord.rot (cmdWord op rot x y color) = rot := by
  ext i hi
  rw [CmdWord.rot, cmdWord, BitVec.getElem_extractLsb']
  rw [BitVec.getLsbD_append, if_neg (by omega), BitVec.getLsbD_append, if_neg (by omega),
    BitVec.getLsbD_append, if_neg (by omega), BitVec.getLsbD_append, if_pos (by omega)]
  rw [← BitVec.getLsbD_eq_getElem]
  congr 1
  omega

@[simp] theorem cmdWord_x : CmdWord.x (cmdWord op rot x y color) = x := by
  ext i hi
  rw [CmdWord.x, cmdWord, BitVec.getElem_extractLsb']
  rw [BitVec.getLsbD_append, if_neg (by omega), BitVec.getLsbD_append, if_neg (by omega),
    BitVec.getLsbD_append, if_pos (by omega)]
  rw [← BitVec.getLsbD_eq_getElem]
  congr 1
  omega

@[simp] theorem cmdWord_y : CmdWord.y (cmdWord op rot x y color) = y := by
  ext i hi
  rw [CmdWord.y, cmdWord, BitVec.getElem_extractLsb']
  rw [BitVec.getLsbD_append, if_neg (by omega), BitVec.getLsbD_append, if_pos (by omega)]
  rw [← BitVec.getLsbD_eq_getElem]
  congr 1
  omega

@[simp] theorem cmdWord_color : CmdWord.color (cmdWord op rot x y color) = color := by
  ext i hi
  rw [CmdWord.color, cmdWord, BitVec.getElem_extractLsb']
  rw [BitVec.getLsbD_append, if_pos (by omega)]
  rw [← BitVec.getLsbD_eq_getElem]
  congr 1
  omega

end Fields

/-- A word is its fields. -/
theorem CmdWord.ext_fields {v w : CmdWord} (hop : v.op = w.op) (hz : v.z = w.z) (hrot : v.rot = w.rot)
    (hx : v.x = w.x) (hy : v.y = w.y) (hcolor : v.color = w.color) : v = w := by
  have bit : ∀ {start len : Nat} (i : Nat), v.extractLsb' start len = w.extractLsb' start len →
      start ≤ i → i < start + len → v.getLsbD i = w.getLsbD i := by
    intro start len i h h1 h2
    have := congrArg (fun u => u.getLsbD (i - start)) h
    simp only [BitVec.getLsbD_extractLsb'] at this
    rwa [Nat.add_sub_cancel' h1, decide_eq_true (by omega), Bool.true_and, Bool.true_and] at this
  apply BitVec.eq_of_getLsbD_eq
  intro i hi
  by_cases h1 : i < 16
  · exact bit i hcolor (by omega) (by omega)
  by_cases h2 : i < 32
  · exact bit i hy (by omega) (by omega)
  by_cases h3 : i < 48
  · exact bit i hx (by omega) (by omega)
  by_cases h4 : i < 50
  · exact bit i hrot (by omega) (by omega)
  by_cases h5 : i < 56
  · exact bit i hz (by omega) (by omega)
  · exact bit i hop (by omega) (by omega)

/-- A masked word, field by field: how a row of the match/mask table reads (30_encoding.md R85). -/
theorem CmdWord.and_eq_iff (w m r : CmdWord) :
    w &&& m = r ↔
      w.op &&& m.op = r.op ∧ w.z &&& m.z = r.z ∧ w.rot &&& m.rot = r.rot ∧ w.x &&& m.x = r.x ∧
        w.y &&& m.y = r.y ∧ w.color &&& m.color = r.color := by
  constructor
  · rintro rfl
    refine ⟨?_, ?_, ?_, ?_, ?_, ?_⟩ <;> exact BitVec.extractLsb'_and.symm
  · rintro ⟨h1, h2, h3, h4, h5, h6⟩
    apply CmdWord.ext_fields
    · rw [← h1]; exact BitVec.extractLsb'_and
    · rw [← h2]; exact BitVec.extractLsb'_and
    · rw [← h3]; exact BitVec.extractLsb'_and
    · rw [← h4]; exact BitVec.extractLsb'_and
    · rw [← h5]; exact BitVec.extractLsb'_and
    · rw [← h6]; exact BitVec.extractLsb'_and

/-! ## The transport request's fields (30_encoding.md R90) -/

@[simp] theorem encodeTq_order (o : Order) (b : Byte) : TqWord.order (encodeTq o b) = o := by
  rw [TqWord.order, encodeTq, BitVec.getLsbD_append, if_neg (by omega)]
  cases o <;> rfl

@[simp] theorem encodeTq_byte (o : Order) (b : Byte) : TqWord.byte (encodeTq o b) = b := by
  ext i hi
  rw [TqWord.byte, encodeTq, BitVec.getElem_extractLsb', BitVec.getLsbD_append, if_pos (by omega),
    ← BitVec.getLsbD_eq_getElem]
  congr 1
  omega

end Sys2Proof
end

