-- ==== Sys2Proof/Laws/Memory.lean ====
section
/-! SUPPORT. The buffer's laws: a read after a write, and the canonical form kept by every operation. -/

namespace Sys2Proof.Machine

open Sys2Proof

/-- A cell put in front reads back, whatever the tail, if the tail does not list its address. -/
theorem Memory.get_consCell (p : Params) (a : Nat) (v : Byte) (m : Memory) (b : Nat)
    (h : ∀ c ∈ m, a < c.1) :
    Memory.get p (Memory.consCell p a v m) b = if b = a then v else Memory.get p m b := by
  have unlisted : ∀ m : Memory, (∀ c ∈ m, a < c.1) → Memory.get p m a = Memory.unlisted p a := by
    intro m
    induction m with
    | nil => intro _; rfl
    | cons c m ih =>
      intro h
      have hc := h c (by simp)
      rw [Memory.get, if_neg (by omega)]
      exact ih fun d hd => h d (by simp [hd])
  unfold Memory.consCell
  split
  · rename_i hv
    split
    · rename_i hb; rw [hb, unlisted m h, hv]
    · rfl
  · rw [Memory.get]
    by_cases hb : b = a
    · rw [if_pos hb, if_pos hb.symm]
    · rw [if_neg hb, if_neg (Ne.symm hb)]

/-- A read after a write: the value written at its index, every other byte as before.  (The addresses
must rise, as in every canonical memory.) -/
theorem Memory.get_put (p : Params) (m : Memory) (a : Nat) (v : Byte) (b : Nat)
    (h : m.Pairwise fun c d => c.1 < d.1) :
    Memory.get p (Memory.put p m a v) b = if b = a then v else Memory.get p m b := by
  induction m with
  | nil => exact Memory.get_consCell p a v [] b (by simp)
  | cons c m ih =>
    obtain ⟨hc, hm⟩ := List.pairwise_cons.mp h
    rw [Memory.put]
    split
    · rename_i hlt
      rw [Memory.get, Memory.get, ih hm]
      by_cases hb : b = a
      · rw [if_pos hb, if_neg (by omega), if_pos hb]
      · rw [if_neg hb, if_neg hb]
    · split
      · rename_i _ heq
        rw [Memory.get_consCell p a v m b fun d hd => heq ▸ hc d hd, Memory.get]
        by_cases hb : b = a
        · rw [if_pos hb, if_pos hb]
        · rw [if_neg hb, if_neg hb, if_neg (by omega)]
      · rename_i hlt heq
        refine Memory.get_consCell p a v (c :: m) b fun d hd => ?_
        rcases List.mem_cons.mp hd with rfl | hd
        · omega
        · have := hc d hd; omega

/-- A cell put in front of a canonical memory below all its addresses keeps the form. -/
theorem Memory.wf_consCell (p : Params) {m : Memory} (hm : Memory.wf p m) {a : Nat} (ha : a < p.N)
    (v : Byte) (h : ∀ c ∈ m, a < c.1) : Memory.wf p (Memory.consCell p a v m) := by
  unfold Memory.consCell
  split
  · exact hm
  · rename_i hv
    refine ⟨List.pairwise_cons.mpr ⟨h, hm.1⟩, fun c hc => ?_⟩
    rcases List.mem_cons.mp hc with rfl | hc
    · exact ⟨ha, hv⟩
    · exact hm.2 c hc

theorem Memory.mem_consCell (p : Params) {a : Nat} {v : Byte} {m : Memory} {c : Host.Cell}
    (h : c ∈ Memory.consCell p a v m) : c = (a, v) ∨ c ∈ m := by
  unfold Memory.consCell at h
  split at h
  · exact .inr h
  · exact List.mem_cons.mp h

/-- A write lists no address but its own and those listed before. -/
theorem Memory.mem_put (p : Params) {m : Memory} {a : Nat} {v : Byte} {c : Host.Cell}
    (h : c ∈ Memory.put p m a v) : c.1 = a ∨ c ∈ m := by
  induction m with
  | nil =>
    rcases Memory.mem_consCell p h with rfl | h
    · exact .inl rfl
    · exact .inr h
  | cons d m ih =>
    rw [Memory.put] at h
    split at h
    · rcases List.mem_cons.mp h with rfl | h
      · exact .inr (by simp)
      · rcases ih h with h | h
        · exact .inl h
        · exact .inr (by simp [h])
    · split at h <;> rcases Memory.mem_consCell p h with rfl | h
      · exact .inl rfl
      · exact .inr (by simp [h])
      · exact .inl rfl
      · exact .inr h

/-- A write inside the buffer keeps the canonical form. -/
theorem Memory.wf_put (p : Params) {m : Memory} (hm : Memory.wf p m) {a : Nat} (ha : a < p.N)
    (v : Byte) : Memory.wf p (Memory.put p m a v) := by
  induction m with
  | nil => exact Memory.wf_consCell p hm ha v (by simp)
  | cons c m ih =>
    obtain ⟨hc, hp⟩ := List.pairwise_cons.mp hm.1
    have hm' : Memory.wf p m := ⟨hp, fun d hd => hm.2 d (by simp [hd])⟩
    rw [Memory.put]
    split
    · rename_i hlt
      have ih := ih hm'
      refine ⟨List.pairwise_cons.mpr ⟨fun d hd => ?_, ih.1⟩, fun d hd => ?_⟩
      · rcases Memory.mem_put p hd with h | h
        · omega
        · exact hc d h
      · rcases List.mem_cons.mp hd with rfl | hd
        · exact hm.2 d (by simp)
        · exact ih.2 d hd
    · split
      · rename_i _ heq
        exact Memory.wf_consCell p hm' ha v fun d hd => heq ▸ hc d hd
      · refine Memory.wf_consCell p hm ha v fun d hd => ?_
        rcases List.mem_cons.mp hd with rfl | hd
        · omega
        · have := hc d hd; omega

theorem Memory.wf_zeroAt (p : Params) (is : List Nat) (his : ∀ i ∈ is, i < p.N) {m : Memory}
    (hm : Memory.wf p m) : Memory.wf p (Memory.zeroAt p is m) := by
  induction is generalizing m with
  | nil => exact hm
  | cons i is ih =>
    exact ih (fun j hj => his j (by simp [hj])) (Memory.wf_put p hm (his i (by simp)) _)

/-- Clearing the buffer keeps the canonical form. -/
theorem Memory.wf_zero (p : Params) {m : Memory} (hm : Memory.wf p m) :
    Memory.wf p (Memory.zero p m) :=
  Memory.wf_zeroAt p _ (fun _ hi => List.mem_range.mp hi) hm

theorem Memory.get_zeroAt (p : Params) (is : List Nat) (his : ∀ i ∈ is, i < p.N) {m : Memory}
    (hm : Memory.wf p m) (b : Nat) :
    Memory.get p (Memory.zeroAt p is m) b = if b ∈ is then 0#8 else Memory.get p m b := by
  induction is generalizing m with
  | nil => simp [Memory.zeroAt]
  | cons i is ih =>
    rw [Memory.zeroAt, ih (fun j hj => his j (by simp [hj])) (Memory.wf_put p hm (his i (by simp)) _),
      Memory.get_put p m i 0#8 b hm.1]
    by_cases h1 : b ∈ is <;> by_cases h2 : b = i <;> simp [h1, h2]

/-- After clearing, every byte of the buffer reads as zero. -/
theorem Memory.get_zero (p : Params) {m : Memory} (hm : Memory.wf p m) (b : Nat) :
    Memory.get p (Memory.zero p m) b = if b < p.N then 0#8 else Memory.get p m b := by
  rw [Memory.zero, Memory.get_zeroAt p _ (fun _ hi => List.mem_range.mp hi) hm]
  simp only [List.mem_range]

/-- A write leaves every other byte alone, whatever the memory lists. -/
theorem Memory.get_put_other (p : Params) (m : Memory) {a b : Nat} (h : b ≠ a) (v : Byte) :
    Memory.get p (Memory.put p m a v) b = Memory.get p m b := by
  have cons : ∀ m : Memory, Memory.get p (Memory.consCell p a v m) b = Memory.get p m b := by
    intro m
    unfold Memory.consCell
    split
    · rfl
    · rw [Memory.get, if_neg (Ne.symm h)]
  induction m with
  | nil => exact cons []
  | cons c m ih =>
    rw [Memory.put]
    split
    · rw [Memory.get, Memory.get, ih]
    · split
      · rename_i _ heq
        rw [cons, Memory.get, if_neg (by omega)]
      · exact cons _

/-- A canonical memory lists exactly the addresses whose byte is not the unlisted one. -/
theorem Memory.get_of_mem (p : Params) {m : Memory} (hm : Memory.wf p m) {c : Host.Cell}
    (hc : c ∈ m) : Memory.get p m c.1 = c.2 := by
  induction m with
  | nil => cases hc
  | cons d m ih =>
    obtain ⟨hd, hp⟩ := List.pairwise_cons.mp hm.1
    rw [Memory.get]
    rcases List.mem_cons.mp hc with rfl | hc
    · rw [if_pos rfl]
    · have := hd c hc
      rw [if_neg (by omega)]
      exact ih ⟨hp, fun e he => hm.2 e (by simp [he])⟩ hc

theorem Memory.mem_of_get (p : Params) {m : Memory} {a : Nat}
    (h : Memory.get p m a ≠ Memory.unlisted p a) : (a, Memory.get p m a) ∈ m := by
  induction m with
  | nil => exact absurd rfl h
  | cons d m ih =>
    rw [Memory.get] at h ⊢
    split at h
    · rename_i heq
      rw [if_pos heq, ← heq]
      exact List.mem_cons_self
    · rename_i heq
      rw [if_neg heq]
      exact List.mem_cons_of_mem _ (ih h)

/-- Canonical memories that read the same are the same data. -/
theorem Memory.ext_get (p : Params) {m m' : Memory} (hm : Memory.wf p m) (hm' : Memory.wf p m')
    (h : ∀ a, Memory.get p m a = Memory.get p m' a) : m = m' := by
  have sub : ∀ {m m' : Memory}, Memory.wf p m → (∀ a, Memory.get p m a = Memory.get p m' a) →
      ∀ c ∈ m, c ∈ m' := by
    intro m m' hm h c hc
    have hg := Memory.get_of_mem p hm hc
    have hne := (hm.2 c hc).2
    have := Memory.mem_of_get p (m := m') (a := c.1) (by rw [← h, hg]; exact hne)
    rwa [← h, hg] at this
  have sorted : ∀ {m : Memory}, Memory.wf p m → m.Pairwise fun c d => c.1 < d.1 := fun h => h.1
  have perm : m.Perm m' := by
    refine (List.perm_ext_iff_of_nodup ?_ ?_).mpr fun c => ⟨sub hm h c, sub hm' (fun a => (h a).symm) c⟩
    · exact (sorted hm).imp fun hlt e => by rw [e] at hlt; omega
    · exact (sorted hm').imp fun hlt e => by rw [e] at hlt; omega
  exact perm.eq_of_pairwise (fun a b _ _ h1 h2 => by omega) (sorted hm) (sorted hm')

/-- Writing the byte already there changes nothing (20_memory.md R56). -/
theorem Memory.put_get (p : Params) {m : Memory} (hm : Memory.wf p m) {a : Nat} (ha : a < p.N) :
    Memory.put p m a (Memory.get p m a) = m := by
  refine Memory.ext_get p (Memory.wf_put p hm ha _) hm fun b => ?_
  rw [Memory.get_put p m a _ b hm.1]
  split
  · rename_i h; rw [h]
  · rfl

/-- The buffer at reset is canonical. -/
theorem Memory.wf_reset (p : Params) : Memory.wf p State.reset.buf := ⟨.nil, by simp [State.reset]⟩

end Sys2Proof.Machine
end

