-- ==== Sys2Proof/Laws/State.lean ====
section
/-! SUPPORT. One lemma per field per update of the state: what each named operation does to each field. -/

namespace Sys2Proof.Machine

open Sys2Proof

/-! ## `Set(l, v)` -/

@[simp] theorem setLine_buf (l : Line) (v : Bool) (s : State) :
    (setLine l v s).buf = s.buf := rfl
@[simp] theorem setLine_rot (l : Line) (v : Bool) (s : State) :
    (setLine l v s).rot = s.rot := rfl
@[simp] theorem setLine_initd (l : Line) (v : Bool) (s : State) :
    (setLine l v s).initd = s.initd := rfl
@[simp] theorem setLine_fault (l : Line) (v : Bool) (s : State) :
    (setLine l v s).fault = s.fault := rfl
@[simp] theorem setLine_lines (l : Line) (v : Bool) (s : State) :
    (setLine l v s).lines = s.lines.put l v := rfl
@[simp] theorem setLine_seq (l : Line) (v : Bool) (s : State) :
    (setLine l v s).seq = s.seq := rfl
@[simp] theorem setLine_tst (l : Line) (v : Bool) (s : State) :
    (setLine l v s).tst = s.tst := rfl
@[simp] theorem setLine_tq (l : Line) (v : Bool) (s : State) :
    (setLine l v s).tq = s.tq := rfl
@[simp] theorem setLine_trace (l : Line) (v : Bool) (s : State) :
    (setLine l v s).trace = s.trace ++ [.set l v] := rfl
@[simp] theorem setLine_cmds (l : Line) (v : Bool) (s : State) :
    (setLine l v s).cmds = s.cmds := rfl

/-! ## `Wait(c)` -/

@[simp] theorem waitFor_buf (c : Delay) (s : State) :
    (waitFor c s).buf = s.buf := rfl
@[simp] theorem waitFor_rot (c : Delay) (s : State) :
    (waitFor c s).rot = s.rot := rfl
@[simp] theorem waitFor_initd (c : Delay) (s : State) :
    (waitFor c s).initd = s.initd := rfl
@[simp] theorem waitFor_fault (c : Delay) (s : State) :
    (waitFor c s).fault = s.fault := rfl
@[simp] theorem waitFor_lines (c : Delay) (s : State) :
    (waitFor c s).lines = s.lines := rfl
@[simp] theorem waitFor_seq (c : Delay) (s : State) :
    (waitFor c s).seq = s.seq := rfl
@[simp] theorem waitFor_tst (c : Delay) (s : State) :
    (waitFor c s).tst = s.tst := rfl
@[simp] theorem waitFor_tq (c : Delay) (s : State) :
    (waitFor c s).tq = s.tq := rfl
@[simp] theorem waitFor_trace (c : Delay) (s : State) :
    (waitFor c s).trace = s.trace ++ [.wait c] := rfl
@[simp] theorem waitFor_cmds (c : Delay) (s : State) :
    (waitFor c s).cmds = s.cmds := rfl

/-! ## `Cfg(l)` -/

@[simp] theorem configure_buf (l : Line) (s : State) :
    (configure l s).buf = s.buf := rfl
@[simp] theorem configure_rot (l : Line) (s : State) :
    (configure l s).rot = s.rot := rfl
@[simp] theorem configure_initd (l : Line) (s : State) :
    (configure l s).initd = s.initd := rfl
@[simp] theorem configure_fault (l : Line) (s : State) :
    (configure l s).fault = s.fault := rfl
@[simp] theorem configure_lines (l : Line) (s : State) :
    (configure l s).lines = s.lines := rfl
@[simp] theorem configure_seq (l : Line) (s : State) :
    (configure l s).seq = s.seq := rfl
@[simp] theorem configure_tst (l : Line) (s : State) :
    (configure l s).tst = s.tst := rfl
@[simp] theorem configure_tq (l : Line) (s : State) :
    (configure l s).tq = s.tq := rfl
@[simp] theorem configure_trace (l : Line) (s : State) :
    (configure l s).trace = s.trace ++ [.cfg l] := rfl
@[simp] theorem configure_cmds (l : Line) (s : State) :
    (configure l s).cmds = s.cmds := rfl

/-! ## A transport request put to the encoder -/

@[simp] theorem issue_buf (o : Order) (b : Byte) (q : Seq) (s : State) :
    (issue o b q s).buf = s.buf := rfl
@[simp] theorem issue_rot (o : Order) (b : Byte) (q : Seq) (s : State) :
    (issue o b q s).rot = s.rot := rfl
@[simp] theorem issue_initd (o : Order) (b : Byte) (q : Seq) (s : State) :
    (issue o b q s).initd = s.initd := rfl
@[simp] theorem issue_fault (o : Order) (b : Byte) (q : Seq) (s : State) :
    (issue o b q s).fault = s.fault := rfl
@[simp] theorem issue_lines (o : Order) (b : Byte) (q : Seq) (s : State) :
    (issue o b q s).lines = s.lines := rfl
@[simp] theorem issue_seq (o : Order) (b : Byte) (q : Seq) (s : State) :
    (issue o b q s).seq = q := rfl
@[simp] theorem issue_tst (o : Order) (b : Byte) (q : Seq) (s : State) :
    (issue o b q s).tst = s.tst := rfl
@[simp] theorem issue_tq (o : Order) (b : Byte) (q : Seq) (s : State) :
    (issue o b q s).tq = some (encodeTq o b) := rfl
@[simp] theorem issue_trace (o : Order) (b : Byte) (q : Seq) (s : State) :
    (issue o b q s).trace = s.trace := rfl
@[simp] theorem issue_cmds (o : Order) (b : Byte) (q : Seq) (s : State) :
    (issue o b q s).cmds = s.cmds := rfl

/-! ## A command word presented -/

@[simp] theorem present_buf (w : CmdWord) (s : State) :
    (s.present w).buf = s.buf := rfl
@[simp] theorem present_rot (w : CmdWord) (s : State) :
    (s.present w).rot = s.rot := rfl
@[simp] theorem present_initd (w : CmdWord) (s : State) :
    (s.present w).initd = s.initd := rfl
@[simp] theorem present_fault (w : CmdWord) (s : State) :
    (s.present w).fault = s.fault := rfl
@[simp] theorem present_lines (w : CmdWord) (s : State) :
    (s.present w).lines = s.lines := rfl
@[simp] theorem present_seq (w : CmdWord) (s : State) :
    (s.present w).seq = s.seq := rfl
@[simp] theorem present_tst (w : CmdWord) (s : State) :
    (s.present w).tst = s.tst := rfl
@[simp] theorem present_tq (w : CmdWord) (s : State) :
    (s.present w).tq = s.tq := rfl
@[simp] theorem present_trace (w : CmdWord) (s : State) :
    (s.present w).trace = s.trace := rfl
@[simp] theorem present_cmds (w : CmdWord) (s : State) :
    (s.present w).cmds = s.cmds ++ [w] := rfl

/-! ## The latches -/

@[simp] theorem levels_put_clk (L : Levels) (v : Bool) : L.put .clk v = { L with clk := v } := rfl
@[simp] theorem levels_put_data (L : Levels) (v : Bool) : L.put .data v = { L with data := v } := rfl
@[simp] theorem levels_put_cs (L : Levels) (v : Bool) : L.put .cs v = { L with cs := v } := rfl
@[simp] theorem levels_put_inv (L : Levels) (v : Bool) : L.put .inv v = { L with inv := v } := rfl

/-- A latch just set holds its level. -/
theorem levels_get_put_same (L : Levels) (l : Line) (v : Bool) : (L.put l v).get l = v := by
  cases l <;> rfl

/-- Setting one latch leaves the others. -/
theorem levels_get_put_other (L : Levels) {l k : Line} (h : k ≠ l) (v : Bool) :
    (L.put l v).get k = L.get k := by
  cases l <;> cases k <;> first | rfl | exact absurd rfl h

/-- Two latches are equal when they agree on every line. -/
theorem levels_ext_get {L M : Levels} (h : ∀ l, L.get l = M.get l) : L = M := by
  obtain ⟨a, b, c, d⟩ := L
  obtain ⟨a', b', c', d'⟩ := M
  have h1 : a = a' := h .clk
  have h2 : b = b' := h .data
  have h3 : c = c' := h .cs
  have h4 : d = d' := h .inv
  rw [h1, h2, h3, h4]

end Sys2Proof.Machine
end

