-- ==== Sys2Proof/Laws/Ops.lean ====
section
/-! SUPPORT. What each shared operation can do, said once: the transport request, the frame bracket, raising a
fault, the guards, the buffer access and the sampled stream. -/

namespace Sys2Proof.Machine

open Sys2Proof

/-! ## Outcomes, faults, guards -/

@[simp] theorem andThen_next (s : State) (k : State → Result) : andThen (.next s) k = k s := rfl

/-- `andThen` answers a next state only through one. -/
theorem andThen_eq_next {r : Result} {k : State → Result} {t : State} (h : andThen r k = .next t) :
    ∃ s, r = .next s ∧ k s = .next t := by
  cases r with
  | next s => exact ⟨s, rfl, h⟩
  | fault f => cases h
  | refused f => cases h

@[simp] theorem raiseFault_eq (k : Cause) (s : State) :
    raiseFault k s = .next { s with fault := faultSet s.fault k } := rfl

/-- A sticky bit stays set. -/
theorem faultSet_mono (f : BitVec 4) (k : Cause) (j : Nat) (h : f.getLsbD j = true) :
    (faultSet f k).getLsbD j = true := by
  simp [faultSet, h]

/-- Raising a cause sets its bit. -/
theorem faultSet_self (f : BitVec 4) (k : Cause) : (faultSet f k).getLsbD k.code = true := by
  cases k <;> simp [faultSet, Cause.code]

theorem whenInit_of_initd {s : State} (h : s.initd = true) (k : State → Result) :
    whenInit s k = k s := if_pos h

theorem whenInit_of_not {s : State} (h : s.initd = false) (k : State → Result) :
    whenInit s k = .next { s with fault := faultSet s.fault .notInit } := by
  simp [whenInit, h]

/-! ## The buffer -/

theorem withByte_of_lt (p : Params) {i : Nat} (h : i < p.N) (s : State) (k : Byte → Result) :
    withByte p i s k = k (Memory.get p s.buf i) := if_pos h

/-- An access to the buffer answers a next state only at an index inside it. -/
theorem withByte_eq_next {p : Params} {i : Nat} {s t : State} {k : Byte → Result}
    (h : withByte p i s k = .next t) : i < p.N ∧ k (Memory.get p s.buf i) = .next t := by
  unfold withByte at h
  split at h
  · exact ⟨‹_›, h⟩
  · cases h

/-- The bit written and the other seven (41_pixel_address.md R135). -/
theorem writeBit_getLsbD (b : Byte) (k : Nat) (c : Bool) (j : Nat) (hj : j < 8) :
    (writeBit b k c).getLsbD j = if j = k then c else b.getLsbD j := by
  have one : (1#8 <<< k).getLsbD j = decide (j = k) := by
    rw [BitVec.getLsbD_shiftLeft]
    by_cases h : j < k
    · simp [h, hj]; omega
    · by_cases e : j = k
      · subst e; simp [hj]
      · have : j - k ≠ 0 := by omega
        simp [hj, h, e, BitVec.getLsbD_one, this]
  unfold writeBit
  cases c
  · simp only [Bool.false_eq_true, if_false, BitVec.getLsbD_and, BitVec.getLsbD_not, one, hj]
    by_cases e : j = k <;> simp [e]
  · simp only [if_true, BitVec.getLsbD_or, one]
    by_cases e : j = k <;> simp [e]

/-- The byte of a pixel inside the buffer (41_pixel_address.md R135, R138). -/
theorem byteIndex_lt (p : Params) {xb yb : Int} (h : inBuffer p xb yb = true) :
    byteIndex p xb yb < p.N ∧ bitIndex xb < 8 := by
  simp only [inBuffer, Bool.and_eq_true, decide_eq_true_eq] at h
  obtain ⟨⟨⟨h1, h2⟩, h3⟩, h4⟩ := h
  obtain ⟨x, rfl⟩ := Int.eq_ofNat_of_zero_le h1
  obtain ⟨y, rfl⟩ := Int.eq_ofNat_of_zero_le h3
  have hx : x < 8 * p.bytesPerLine := by have := Laws.Config.W_eq p; omega
  have hy : y + 1 ≤ p.H := by omega
  have hidx : byteIndex p x y = y * p.bytesPerLine + x / 8 := by
    have : (y : Int) * (p.W : Int) + x = ((y * p.bytesPerLine) * 8 + x : Nat) := by
      rw [Laws.Config.W_eq]; push_cast; ring
    rw [byteIndex, this]
    omega
  refine ⟨?_, by rw [bitIndex]; omega⟩
  rw [hidx, Laws.Config.N_eq]
  have : (y + 1) * p.bytesPerLine ≤ p.H * p.bytesPerLine := Nat.mul_le_mul_right _ hy
  rw [Nat.add_mul] at this
  omega

/-! ## The transport request and the frame bracket -/

/-- The events of a request's bits, from its shift register. -/
theorem txBits_eq (o : Order) (count : Nat) (sr : Byte) (s : State) :
    ∃ bits : List Bool, bits.length = count ∧
      (∀ k, (hk : k < bits.length) → k < 8 → bits[k] = wireBit o sr k) ∧
      txBits o count sr s =
        { s with
          lines := bits.foldl (fun L v => ((L.put .clk false).put .data v).put .clk true) s.lines
          trace := s.trace ++ bits.flatMap bitEvents } := by
  have out : ∀ sr : Byte, outBit o sr = wireBit o sr 0 := by intro sr; cases o <;> rfl
  have shift : ∀ (sr : Byte) (k : Nat), k + 1 < 8 → wireBit o (shiftOut o sr) k = wireBit o sr (k + 1) := by
    intro sr k hk
    cases o with
    | msb =>
      have h1 : 7 - k - 1 = 7 - (k + 1) := by omega
      have h2 : ¬ (7 - k < 1) := by omega
      have h3 : 7 - k < 8 := by omega
      simp only [wireBit, shiftOut, BitVec.getLsbD_shiftLeft, h1, h2, h3]
      rfl
    | lsb => simp [wireBit, shiftOut, BitVec.getLsbD_ushiftRight, Nat.add_comm]
  induction count generalizing sr s with
  | zero => exact ⟨[], rfl, fun k hk => absurd hk (by simp), by simp [txBits]⟩
  | succ count ih =>
    obtain ⟨bits, hlen, hbits, heq⟩ :=
      ih (shiftOut o sr) (setLine .clk true (setLine .data (outBit o sr) (setLine .clk false s)))
    refine ⟨outBit o sr :: bits, by simp [hlen], fun k hk hk8 => ?_, ?_⟩
    · cases k with
      | zero => exact out sr
      | succ k =>
        simp only [List.length_cons] at hk
        rw [List.getElem_cons_succ, hbits k (by omega) (by omega), shift sr k hk8]
    · rw [txBits, heq]
      simp [setLine, bitEvents]

/-- What a transport request does: it appends the 25 events of its byte, leaves the clock low and the
last bit on `DATA`, and changes nothing else (40_transport.md R110 to R114). -/
theorem tx_eq (o : Order) (b : Byte) (s : State) :
    tx o b s =
      { s with
        lines := { s.lines with clk := false, data := wireBit o b 7 }
        trace := s.trace ++ byteEvents o b } := by
  obtain ⟨bits, hlen, hbits, heq⟩ := txBits_eq o 8 b s
  have hb : bits = byteBits o b := by
    apply List.ext_getElem
    · simp [hlen, byteBits]
    · intro k h1 h2
      rw [hbits k h1 (by omega)]
      simp [byteBits]
  subst hb
  rw [tx, heq]
  simp [setLine, byteEvents, byteBits, List.range, List.range.loop]

/-- `Select()` (42_refresh_sequencer.md R161). -/
theorem select_eq (s : State) :
    select s = { s with lines := { s.lines with cs := true }
                        trace := s.trace ++ [.set .cs true, .wait .settle] } := by
  simp [select, waitFor, setLine]

/-- `Deselect()` (42_refresh_sequencer.md R161). -/
theorem deselect_eq (s : State) :
    deselect s =
      { s with lines := { s.lines with cs := false }
               trace := s.trace ++ [.wait .hold, .set .cs false, .wait .deselect] } := by
  simp [deselect, waitFor, setLine]

/-! ## The sampled stream (00_scope.md R11) -/

theorem Tracked.after_append (t : Tracked) (es fs : List Event) :
    t.after (es ++ fs) = (t.after es).after fs := by
  induction es generalizing t with
  | nil => rfl
  | cons e es ih => exact ih _

theorem sampledFrom_append (t : Tracked) (es fs : List Event) :
    sampledFrom t (es ++ fs) = sampledFrom t es ++ sampledFrom (t.after es) fs := by
  induction es generalizing t with
  | nil => rfl
  | cons e es ih => simp [sampledFrom, Tracked.after, ih]

/-- A byte sent tracks to the clock low and the last bit on `DATA`. -/
theorem Tracked.after_byteEvents (t : Tracked) (o : Order) (b : Byte) :
    t.after (byteEvents o b) = { t with clk := some false, data := some (wireBit o b 7) } := by
  simp [byteEvents, byteBits, List.range, List.range.loop, bitEvents, Tracked.after, Tracked.apply]

/-- A selected receiver takes exactly the eight bits of a byte, whatever the levels of `CLK` and `DATA`
before it (40_transport.md R118). -/
theorem sampledFrom_byteEvents (t : Tracked) (o : Order) (b : Byte) (h : t.cs = some true) :
    sampledFrom t (byteEvents o b) = (byteBits o b).map some := by
  simp [byteEvents, byteBits, List.range, List.range.loop, bitEvents, sampledFrom, Tracked.sample,
    Tracked.apply, h]

end Sys2Proof.Machine
end

