-- ==== Sys2Proof/Laws/PerInstr.lean ====
section
/-! SUPPORT. Per instruction: the encoded word of an operation selects its own row of the match/mask table and
no other (30_encoding.md R85, R90), operands of any value. -/

namespace Sys2Proof.Laws.TableRow

open Sys2Proof

/-- The row of a command in `commandTable`, counted from 0; the transport requests have none. -/
def row : Instr → Nat
  | .init _ => 0
  | .setrot _ => 1
  | .setpix _ _ _ => 2
  | .getpix _ _ => 3
  | .clear => 4
  | .refresh => 5
  | .invpulse => 6
  | .sendmsb _ => 7
  | .sendlsb _ => 7

/-- The match of a transport request under the mask `0x100` (30_encoding.md R90). -/
def tqMatch : Instr → TqWord
  | .sendlsb _ => 0x100#9
  | _ => 0x000#9

/-- A command word selects its command's row and no other; a transport request has its row's match. -/
def Statement (i : Instr) : Prop :=
  match encode i with
  | .command w => ∀ k r, commandTable[k]? = some r → (r.selects w = true ↔ k = row i)
  | .transport t => t &&& 0x100#9 = tqMatch i

/-- Which rows a word of the seven opcodes selects, from its fields. -/
theorem selects_cmdWord (op : BitVec 8) (rot : BitVec 2) (x y color : BitVec 16) (r : TableRow) :
    r.selects (cmdWord op rot x y color) = true ↔
      op &&& r.mask.op = r.matchWord.op ∧ 0#6 &&& r.mask.z = r.matchWord.z ∧
        rot &&& r.mask.rot = r.matchWord.rot ∧ x &&& r.mask.x = r.matchWord.x ∧
          y &&& r.mask.y = r.matchWord.y ∧ color &&& r.mask.color = r.matchWord.color := by
  simp [TableRow.selects, CmdWord.and_eq_iff]

/-- Every row masks the whole opcode, so a word selects at most the row of its opcode. -/
theorem selects_only (k : Nat) (r : TableRow) (hr : commandTable[k]? = some r) (n : Nat)
    (hn : n < 7) (rot : BitVec 2) (x y color : BitVec 16)
    (own : ∀ r, commandTable[n]? = some r →
      r.selects (cmdWord (BitVec.ofNat 8 (n + 1)) rot x y color) = true) :
    r.selects (cmdWord (BitVec.ofNat 8 (n + 1)) rot x y color) = true ↔ k = n := by
  constructor
  · intro h
    have hop := ((selects_cmdWord _ _ _ _ _ r).mp h).1
    have hk : k < 7 := by
      have := (List.getElem?_eq_some_iff.mp hr).1
      simpa [commandTable] using this
    have full : r.mask.op = 0xFF#8 ∧ r.matchWord.op = BitVec.ofNat 8 (k + 1) := by
      interval_cases k <;> (simp only [commandTable] at hr; cases hr; decide)
    rw [full.1, full.2] at hop
    interval_cases k <;> interval_cases n <;> first | rfl | exact absurd hop (by decide)
  · rintro rfl; exact own r hr

theorem init (r : Rot) : Statement (.init r) := fun k t ht =>
  selects_only k t ht 0 (by decide) _ _ _ _ fun t ht => by
    cases ht; cases r <;> decide

theorem setrot (r : Rot) : Statement (.setrot r) := fun k t ht =>
  selects_only k t ht 1 (by decide) _ _ _ _ fun t ht => by
    cases ht; cases r <;> decide

theorem setpix (x y : Int) (color : BitVec 16) : Statement (.setpix x y color) := fun k t ht =>
  selects_only k t ht 2 (by decide) _ _ _ _ fun t ht => by
    cases ht
    exact (selects_cmdWord _ _ _ _ _ _).mpr
      ⟨by decide, by decide, by decide, BitVec.and_zero, BitVec.and_zero, BitVec.and_zero⟩

theorem getpix (x y : Int) : Statement (.getpix x y) := fun k t ht =>
  selects_only k t ht 3 (by decide) _ _ _ _ fun t ht => by
    cases ht
    exact (selects_cmdWord _ _ _ _ _ _).mpr
      ⟨by decide, by decide, by decide, BitVec.and_zero, BitVec.and_zero, by decide⟩

theorem clear : Statement .clear := fun k t ht =>
  selects_only k t ht 4 (by decide) _ _ _ _ fun t ht => by cases ht; decide

theorem refresh : Statement .refresh := fun k t ht =>
  selects_only k t ht 5 (by decide) _ _ _ _ fun t ht => by cases ht; decide

theorem invpulse : Statement .invpulse := fun k t ht =>
  selects_only k t ht 6 (by decide) _ _ _ _ fun t ht => by cases ht; decide

theorem sendmsb (b : Byte) : Statement (.sendmsb b) := by
  show encodeTq .msb b &&& 0x100#9 = 0x000#9
  revert b; decide

theorem sendlsb (b : Byte) : Statement (.sendlsb b) := by
  show encodeTq .lsb b &&& 0x100#9 = 0x100#9
  revert b; decide

end Sys2Proof.Laws.TableRow
end

