-- ==== Sys2Proof/Tests/Slice0.lean ====
section
/-! SUPPORT. Tests: the vectors of 95_test_vectors.md on small instances, an ill-formed term for each check, and a
witness for the hypotheses of each statement. -/

namespace Sys2Proof.Tests

open Sys2Proof Sys2Proof.Machine Sys2Proof.Claims

/-! ## Well-formedness: an ill-formed term for each check -/

theorem test_wf_setpix_x : (Instr.setpix 32768 0 1#16).wf = false := by decide
theorem test_wf_setpix_y : (Instr.setpix 0 (-32769) 1#16).wf = false := by decide
theorem test_wf_getpix_x : (Instr.getpix (-32769) 0).wf = false := by decide
theorem test_wf_getpix_y : (Instr.getpix 0 32768).wf = false := by decide
theorem test_wf_setpix_edges : (Instr.setpix (-32768) 32767 0#16).wf = true := by decide

/-! ## Decoding: the words of 95_test_vectors.md section 4 (bit patterns in the obligations) -/

theorem test_decode_init : decode 0x0103000000000000#64 = .instr (.init .r3) := by decide
theorem test_decode_setrot : decode 0x0202000000000000#64 = .instr (.setrot .r2) := by decide
theorem test_decode_setpix :
    decode 0x030080007FFF0100#64 = .instr (.setpix (-32768) 32767 256#16) := by decide
theorem test_decode_getpix : decode 0x0400000300050000#64 = .instr (.getpix 3 5) := by decide
theorem test_decode_clear : decode 0x0500000000000000#64 = .instr .clear := by decide
theorem test_decode_refresh : decode 0x0600000000000000#64 = .instr .refresh := by decide
theorem test_decode_invpulse : decode 0x0700000000000000#64 = .instr .invpulse := by decide
theorem test_decode_sendmsb : decodeTq 0b0_10100101#9 = .sendmsb 0xA5#8 := by decide
theorem test_decode_sendlsb : decodeTq 0b1_00000011#9 = .sendlsb 0x03#8 := by decide

/-- E-13 to E-15: an unknown opcode is rejected by name. -/
theorem test_decode_unknown :
    decode 0x0000000000000000#64 = .illegal (.unknownOp 0x00#8) ∧
    decode 0x0800000000000000#64 = .illegal (.unknownOp 0x08#8) ∧
    decode 0xFF00000000000000#64 = .illegal (.unknownOp 0xFF#8) := by decide

/-- E-16 to E-21: a reserved bit set is rejected by name. -/
theorem test_decode_reserved :
    decode 0x0500000000000001#64 = .illegal (.reservedBit 0x05#8) ∧
    decode 0x0104000000000000#64 = .illegal (.reservedBit 0x01#8) ∧
    decode 0x0100000000000001#64 = .illegal (.reservedBit 0x01#8) ∧
    decode 0x0301000000000000#64 = .illegal (.reservedBit 0x03#8) ∧
    decode 0x0400000300050001#64 = .illegal (.reservedBit 0x04#8) ∧
    decode 0x0600000100000000#64 = .illegal (.reservedBit 0x06#8) := by decide

/-- E-7, E-9 and a transport request, encoded. -/
theorem test_encode :
    encode (.setpix 3 5 65535#16) = .command 0x030000030005FFFF#64 ∧
    encode (.getpix 3 5) = .command 0x0400000300050000#64 ∧
    encode (.sendlsb 0x60#8) = .transport 0x160#9 := by decide

/-- The bits of opcode-table rows. -/
theorem test_table_words :
    decodeTableWord 64 0x0201000000000000 = some (.setrot .r1) ∧
    decodeTableWord 64 0 = none ∧
    decodeTableWord 16 0x080 = some (.sendmsb 0x80#8) ∧
    decodeTableWord 16 0x180 = some (.sendlsb 0x80#8) := by decide

/-! ## One step on small instances -/

/-- An instance with `W = 8 * groups`, `H = lines`, the codes 0x80 and 0x20 the vectors use
(00_scope.md R7), every delay 1 microsecond and every byte 0xAA at reset. -/
def panel (groups : Nat) (lines : Fin 255) : Params :=
  { extraGroups := groups - 1, extraLines := lines - 1, cmdWrite := 0x80#8, cmdGap := 159
    settleExtra := 0, holdExtra := 0, deselectExtra := 0, invExtra := 0
    resetByte := fun _ => 0xAA#8, resetLevel := fun _ => true }

/-- An idle, initialised state with a given rotation and buffer. -/
def started (r : Rot) (m : Memory) : State :=
  { buf := m, rot := r, initd := true, fault := 0#4, lines := Levels.low, seq := .idle, tst := none
    tq := none, trace := [], cmds := [] }

/-- The state of a next outcome. -/
def after : Result → Option State
  | .next s => some s
  | .fault _ => none
  | .refused _ => none

/-- The bits sampled over the trace of a next outcome. -/
def bitsOf (r : Result) : Option (List Bool) :=
  (after r).bind fun s => (sampled s.trace).mapM id

theorem test_panel_codes : (panel 1 8).cmdClear = 0x20#8 ∧ (panel 2 8).N = 16 := by decide

/-- Q-1. -/
theorem test_init :
    (after (execInit .r0 State.reset)).map (fun s => (s.trace, s.lines, s.rot, s.initd)) =
      some ([.cfg .clk, .set .clk false, .cfg .data, .set .data false, .cfg .cs, .set .cs false,
        .cfg .inv, .set .inv false], Levels.low, .r0, true) := by decide

/-- P2 command 4. -/
theorem test_setrot : (after (execSetrot .r2 (started .r1 []))).map State.rot = some .r2 := by decide

/-- `SETROT 2` with `INITD = 0`: `FAULT[1]`, `ROT` unchanged. -/
theorem test_setrot_not_init :
    (after (execSetrot .r2 State.reset)).map (fun s => (s.fault, s.rot)) = some (0b0010#4, .r0) := by
  decide

/-- X-6 on a cleared byte: `W = H = 8`, `ROT = 1`, (3, 5) is bit 5 of byte 3. -/
theorem test_setpix_rotation_one :
    (after (setpixOn (panel 1 8) 3 5 true (started .r1 [(3, 0x00#8)]))).map State.buf =
      some [(3, 0x20#8)] := by decide

/-- X-20: `W = 16`, `H = 8`, `ROT = 1`, (8, 0) faults and writes nothing. -/
theorem test_setpix_xform_range :
    (after (setpixOn (panel 2 8) 8 0 true (started .r1 []))).map (fun s => (s.buf, s.fault)) =
      some ([], 0b1000#4) := by decide

/-- `GETPIX 3, 5` after INIT sets `FAULT[2]`. -/
theorem test_getpix : (after (execGetpix 3 5 (started .r0 []))).map State.fault = some 0b0100#4 := by
  decide

/-- Q-2 on `W = 8`, `H = 1`: the frame and the zeroed buffer. -/
theorem test_clear :
    bitsOf (clearOn (panel 1 1) (started .r0 [])) =
      some [false, false, true, false, false, false, false, false,
        false, false, false, false, false, false, false, false] := by decide

theorem test_clear_buffer :
    (after (clearOn (panel 1 2) (started .r0 [(1, 0x55#8)]))).map State.buf =
      some [(0, 0x00#8), (1, 0x00#8)] := by decide

set_option maxRecDepth 4000 in
/-- R-2: `W = 8`, `H = 1`, `BUF = 01`. -/
theorem test_refresh :
    bitsOf (refreshOn (panel 1 1) (started .r0 [(0, 0x01#8)])) =
      some ([true, false, false, false, false, false, false, false] ++
        [true, false, false, false, false, false, false, false] ++
        [true, false, false, false, false, false, false, false] ++
        List.replicate 16 false) := by decide

/-- R-3: `W = 16`, `H = 2`, `BUF = 01 80 F0 0F`: the bytes of the frame. -/
theorem test_refresh_bytes :
    frameBytes (panel 2 2) [(0, 0x01#8), (1, 0x80#8), (2, 0xF0#8), (3, 0x0F#8)] =
      [(.msb, 0x80#8), (.lsb, 0x01#8), (.lsb, 0x01#8), (.lsb, 0x80#8), (.msb, 0x00#8),
        (.lsb, 0x02#8), (.lsb, 0xF0#8), (.lsb, 0x0F#8), (.msb, 0x00#8), (.msb, 0x00#8)] := by decide

/-- Q-3. -/
theorem test_invpulse :
    (after (execInvpulse (started .r0 []))).map State.trace =
      some [.set .inv true, .wait .inv, .set .inv false] := by decide

/-- T-11 and T-12: `SENDMSB 0x01` and `SENDLSB 0x80` put `00000001` on `DATA`, which stays 1. -/
theorem test_sendmsb :
    (after (execSendmsb 0x01#8 (started .r0 []))).map (fun s => (s.lines.data, s.trace.drop 21)) =
      some (true, [.set .clk false, .set .data true, .set .clk true, .set .clk false]) := by decide

theorem test_sendlsb :
    (after (execSendlsb 0x80#8 (started .r0 []))).map (fun s => (s.lines.data, s.trace.drop 21)) =
      some (true, [.set .clk false, .set .data true, .set .clk true, .set .clk false]) := by decide

/-- P3 command 4: the all-zero word sets `FAULT[0]` and is taken. -/
theorem test_step_illegal :
    (after (step (State.reset.withFetchWord 64 0))).map (fun s => (s.fault, s.cmds, s.initd)) =
      some (0b0001#4, [], false) := by decide

/-- A transport request placed at the encoder runs as the first operation after reset. -/
theorem test_step_transport :
    (after (step (State.reset.withFetchWord 16 0x101))).map (fun s => (s.tq, s.trace.length)) =
      some (none, 25) := by decide

/-- The reference machine: after 26 steps the encoder is back in `T_IDLE` with the 25 events of T-1. -/
theorem test_fsm_encoder :
    (after (fsmRun (panel 1 1) 26 { started .r0 [] with tq := some 0x080#9 })).map
      (fun s => (s.tst, s.trace)) = some (none, byteEvents .msb 0x80#8) := by decide

/-! ## Witnesses: states and operands that meet the hypotheses of each statement -/

/-- An initialised state of the instance the model is of. -/
def live : State := started .r0 []

/-- The same with one command word to take. -/
def liveWith (w : CmdWord) : State := { live with cmds := [w] }

theorem live_wf : Memory.wf Config.params live.buf := ⟨.nil, by simp [live, started]⟩

theorem inside_origin (p : Params) : Inside p 0 0 := by
  have := Laws.Config.W_ge_eight p
  have := Laws.Config.H_pos p
  refine ⟨?_, ?_, ?_, ?_⟩ <;> omega

theorem witness_DecodeEncodeRoundTrip : (Instr.setpix (-32768) 32767 1#16).wf = true := by decide

theorem witness_EncodeDecodeRoundTrip : decode 0x0103000000000000#64 = .instr (.init .r3) := by decide

theorem witness_IllegalWordsFaultAndDoNothingElse :
    (liveWith 0x0104000000000000#64).ready = true ∧
    (liveWith 0x0104000000000000#64).cmds = [0x0104000000000000#64] ∧
    (∃ e, decode 0x0104000000000000#64 = .illegal e) ∧ ¬ LegalShape 0x0104000000000000#64 := by
  refine ⟨by decide, by decide, ⟨.reservedBit 0x01#8, by decide⟩, ?_⟩
  unfold LegalShape
  decide

theorem witness_TableRowsExclusive :
    commandTable[2]? = some ⟨0x0300000000000000#64, 0xFFFF000000000000#64⟩ ∧
    TableRow.selects ⟨0x0300000000000000#64, 0xFFFF000000000000#64⟩ 0x030000030005FFFF#64 = true := by
  decide

/-- The four clauses: a command word, a transport request, nothing, a busy block. -/
theorem witness_StepRunsTheDecodedOperation :
    ((liveWith 0x0500000000000000#64).ready = true ∧ decode 0x0500000000000000#64 = .instr .clear) ∧
    ({ live with tq := some 0x080#9 } : State).busy = false ∧
    (live.ready = true ∧ live.cmds = []) ∧
    ({ live with seq := .invUp } : State).busy = true := by decide

theorem witness_commands_initialised : live.initd = true ∧ State.reset.initd = false := by decide

/-- Both ends of both ranges of 41_pixel_address.md R132, outside and inside. -/
theorem witness_SetpixOutOfBoundsIsSilent :
    live.initd = true ∧ ¬ Inside Config.params (-1) 0 ∧ ¬ Inside Config.params 0 (-1) ∧
    ¬ Inside Config.params Config.params.W 0 ∧ ¬ Inside Config.params 0 Config.params.H := by
  refine ⟨rfl, ?_, ?_, ?_, ?_⟩ <;> simp [Inside]

theorem witness_SetpixWritesOneBit :
    live.initd = true ∧ Inside Config.params 0 0 ∧ Fits Config.params live.rot 0 0 ∧
    Memory.wf Config.params live.buf :=
  ⟨rfl, inside_origin _, .inl rfl, live_wf⟩

theorem inside_last (p : Params) : Inside p (p.W - 1) (p.H - 1) := by
  have := Laws.Config.W_ge_eight p
  have := Laws.Config.H_pos p
  refine ⟨?_, ?_, ?_, ?_⟩ <;> omega

theorem witness_SetpixWritesOneBit_last :
    Inside Config.params (Config.params.W - 1) (Config.params.H - 1) ∧
    Fits Config.params .r2 (Config.params.W - 1) (Config.params.H - 1) :=
  ⟨inside_last _, .inr (.inl rfl)⟩

/-- X-20 and X-19: the two sides of the condition at its edge, `X = H` and `X = H - 1`. -/
theorem witness_SetpixXformRange :
    Inside (panel 2 8) 8 0 ∧ ((panel 2 8).W ≤ (0 : Int) ∨ (panel 2 8).H ≤ (8 : Int)) ∧
    Inside (panel 2 8) 7 7 ∧ ¬ ((panel 2 8).W ≤ (7 : Int) ∨ (panel 2 8).H ≤ (7 : Int)) := by
  unfold Inside
  decide

theorem witness_SetpixFrame : ∃ t, exec (.setpix (-1) 0 1#16) live = .next t :=
  ⟨live, by
    have : inBounds Config.params (-1) 0 = false := by simp [inBounds]
    simp [exec, execSetpix, setpixOn, whenInit, pixelWrite, this, live, started]⟩

theorem witness_SetpixTwiceIsOnce :
    Memory.wf Config.params live.buf ∧ ∃ t, exec (.setpix (-1) 0 1#16) live = .next t :=
  ⟨live_wf, witness_SetpixFrame⟩

theorem witness_ClearCommand :
    live.initd = true ∧ Memory.wf Config.params live.buf ∧ State.reset.initd = false :=
  ⟨rfl, live_wf, rfl⟩

theorem witness_RefreshFrameByPosition : (0 : Nat) < (panel 2 2).H ∧ 1 < (panel 2 2).W / 8 := by decide

/-- The receiver selected, and not selected. -/
theorem witness_TransportLaws :
    (Tracked.start.after [.set .cs true]).cs = some true ∧
    (Tracked.start.after [.set .cs false]).cs = some false ∧
    (∃ t, exec (.sendmsb 0xA5#8) live = .next t) ∧ (∃ t, exec (.sendlsb 0xA5#8) live = .next t) ∧
    byteEvents .msb 0xA5#8 = [.set .clk false] ++ .set .data true :: (byteEvents .msb 0xA5#8).drop 2 ∧
    (0xA5#8 : Byte) = rev8 0xA5#8 :=
  ⟨rfl, rfl, ⟨_, rfl⟩, ⟨_, rfl⟩, by decide, by decide⟩

theorem witness_NotInitBeforeInit :
    guarded .refresh = true ∧ guarded (.setpix 0 0 1#16) = true ∧ State.reset.initd = false := by decide

theorem witness_FaultsArePrecise : ∃ t, exec (.getpix 3 5) live = .next t ∧ t.fault ≠ live.fault :=
  ⟨{ live with fault := 0b0100#4 }, rfl, by decide⟩

/-- The word clauses on one word each, and SETPIX's four cases on an instance. -/
theorem witness_FaultPriority :
    (liveWith 0x0000000000000000#64).ready = true ∧
    (∃ e, decode 0x0000000000000000#64 = .illegal e) ∧
    decode 0x0400000300050000#64 = .instr (.getpix 3 5) ∧
    guarded (.getpix 3 5) = true ∧
    decode 0x0300000000000001#64 = .instr (.setpix 0 0 1#16) ∧
    ¬ Inside (panel 2 8) 16 0 ∧
    (Inside (panel 2 8) 8 0 ∧ ¬ Fits (panel 2 8) .r1 8 0) ∧
    (Inside (panel 2 8) 7 7 ∧ Fits (panel 2 8) .r1 7 7) := by
  refine ⟨by decide, ⟨.unknownOp 0x00#8, by decide⟩, by decide, by decide, by decide, ?_⟩
  unfold Inside Fits
  decide

theorem witness_OnlyTheListedWriters :
    ∃ t, exec (.init .r1) State.reset = .next t ∧ t.rot ≠ State.reset.rot ∧
      t.initd ≠ State.reset.initd :=
  ⟨_, rfl, by decide, by decide⟩

/-- A step that answers a next state, atomic and of a busy block. -/
theorem witness_steps :
    (∃ t, step (liveWith 0x0700000000000000#64) = .next t) ∧
    ∃ t, step { live with seq := .invUp } = .next t :=
  ⟨⟨_, rfl⟩, ⟨_, rfl⟩⟩

theorem witness_TransformClosedForms :
    (panel 1 8).W = (panel 1 8).H ∧ Inside (panel 1 8) 0 7 ∧ Fits (panel 1 8) .r1 0 7 := by
  unfold Inside Fits
  decide

theorem witness_PixelLayout :
    inBuffer (panel 2 8) 0 0 = true ∧ inBuffer (panel 2 8) 15 7 = true := by decide

theorem witness_FramesExcludeEachOther :
    (∃ t, exec .clear live = .next t) ∧ (∃ t, exec .invpulse live = .next t) ∧ live.initd = true :=
  ⟨⟨_, rfl⟩, ⟨_, rfl⟩, rfl⟩

theorem witness_EventCounts :
    hostCommand .refresh = true ∧ (guarded .refresh = true → live.initd = true) ∧
    hostCommand (.init .r0) = true ∧ (guarded (.init .r0) = true → State.reset.initd = true) ∧
    (liveWith 0).ready = true ∧ (liveWith 0).cmds = [0] ∧ ∃ e, decode 0 = .illegal e :=
  ⟨rfl, fun _ => rfl, rfl, fun h => absurd h (by decide), rfl, rfl, DecodeError.unknownOp 0#8, by decide⟩

theorem witness_LevelsAfterCommands :
    (∃ t, exec (.init .r0) State.reset = .next t) ∧ (∃ t, exec .clear live = .next t) ∧
    (∃ t, exec .invpulse live = .next t) ∧ ∃ t, exec (.getpix 0 0) live = .next t ∧ t.fault ≠ live.fault :=
  ⟨⟨_, rfl⟩, ⟨_, rfl⟩, ⟨_, rfl⟩, ⟨_, rfl, by decide⟩⟩

theorem witness_PixelReachesTheWire :
    live.initd = true ∧ Inside Config.params 0 0 ∧ Fits Config.params live.rot 0 0 ∧
    Memory.wf Config.params live.buf := witness_SetpixWritesOneBit

theorem witness_EncoderMachineRefinesRequest :
    ({ live with tq := some 0x1FF#9 } : State).tst = none ∧
    ({ live with tq := some 0x1FF#9 } : State).tq = some 0x1FF#9 := by decide

theorem witness_SequencerMachineRefinesCommand :
    live.ready = true ∧ ({ live with seq := .invHold } : State).busy = true ∧
    ∃ t, step { live with seq := .invHold } = .next t := ⟨by decide, by decide, ⟨_, rfl⟩⟩

theorem witness_MachineStepEmitsAtMostOneEvent :
    ∃ t, fsmStep (panel 1 1) { live with seq := .invUp } = .next t := ⟨_, rfl⟩

theorem witness_LatchesFollowTheTrace :
    live.latchesFollowTrace ∧ ∃ t, step live = .next t := by
  refine ⟨fun l v h => ?_, ⟨_, rfl⟩⟩
  cases l <;> cases h

/-- The invariant is met between commands, and in the middle of a frame with a byte on the wire. -/
theorem witness_invariant_idle : live.Inv Config.params := by
  refine ⟨live_wf, ⟨⟨rfl, rfl⟩, fun _ => rfl⟩, fun f h => by cases h⟩

theorem witness_invariant_step :
    live.Inv Config.params ∧ Memory.wf Config.params live.buf ∧ ∃ t, step live = .next t :=
  ⟨witness_invariant_idle, live_wf, _, rfl⟩

theorem witness_invariant_busy :
    State.Inv Config.params
      { live with
        seq := .frame { phase := .data, kind := .refresh, i := 0, cnt := 0, line := 1 }
        lines := Levels.selected
        tst := some { phase := .low, order := .lsb, sr := 0x01#8, n := 0 } } := by
  have hp := Laws.Config.bytesPerLine_pos Config.params
  have hH := Laws.Config.H_pos Config.params
  refine ⟨live_wf, ⟨rfl, ?_⟩, ?_⟩
  · refine ⟨rfl, rfl, ?_, ?_⟩
    · simp
    · intro t h
      simp only [Option.some.injEq] at h
      subst h
      exact ⟨rfl, by simp [Transport.ok]⟩
  · intro f h
    cases h
    simp only [Frame.ok]
    omega

end Sys2Proof.Tests
end

section
/-! SUPPORT. What the block takes next, one lemma per row of `fetch` and of `step`, and the statement that a
step runs the decoded operation. -/

namespace Sys2Proof.Machine

open Sys2Proof Sys2Proof.Claims

/-! ## Taking the next operation (30_encoding.md R80, R90) -/

theorem State.ready_iff {s : State} : s.ready = true ↔ s.busy = false ∧ s.tq = none := by
  simp [State.ready]

theorem fetch_request {s : State} {q : TqWord} (hq : s.tq = some q) :
    fetch s = .operation (decodeTq q) { s with tq := none } := by
  simp [fetch, hq, decodeRequest, Fetched.ofDecoded]

theorem fetch_word {s : State} {w : CmdWord} {ws : List CmdWord} (hq : s.tq = none)
    (hw : s.cmds = w :: ws) :
    fetch s = Fetched.ofDecoded { s with cmds := ws } (decode w) := by
  simp [fetch, hq, hw, decodeRequest]

theorem fetch_nothing {s : State} (hq : s.tq = none) (hw : s.cmds = []) : fetch s = .nothing := by
  simp [fetch, hq, hw]

/-! ## One step (00_scope.md R10, R12) -/

theorem step_busy {s : State} (hb : s.busy = true) : step s = fsmStep Config.params s := if_pos hb

theorem step_request {s : State} {q : TqWord} (hb : s.busy = false) (hq : s.tq = some q) :
    step s = exec (decodeTq q) { s with tq := none } := by
  simp [step, hb, fetch_request hq]

theorem step_word {s : State} {w : CmdWord} {ws : List CmdWord} {i : Instr} (hs : s.ready = true)
    (hw : s.cmds = w :: ws) (hi : decode w = .instr i) : step s = exec i { s with cmds := ws } := by
  obtain ⟨hb, hq⟩ := State.ready_iff.mp hs
  simp [step, hb, fetch_word hq hw, hi, Fetched.ofDecoded]

theorem step_illegal_word {s : State} {w : CmdWord} {ws : List CmdWord} {e : DecodeError}
    (hs : s.ready = true) (hw : s.cmds = w :: ws) (he : decode w = .illegal e) :
    step s = .next { s with cmds := ws, fault := faultSet s.fault .illegalCmd } := by
  obtain ⟨hb, hq⟩ := State.ready_iff.mp hs
  simp [step, hb, fetch_word hq hw, he, Fetched.ofDecoded]

theorem step_nothing {s : State} (hs : s.ready = true) (hw : s.cmds = []) : step s = .next s := by
  obtain ⟨hb, hq⟩ := State.ready_iff.mp hs
  simp [step, hb, fetch_nothing hq hw]

/-- Settles O7: its clauses are the rows of `step` for a legal word, a request, nothing, and a busy block. -/
theorem stepRunsTheDecodedOperation : Obligations.StepRunsTheDecodedOperation :=
  ⟨fun _ _ _ _ hs hw hi => step_word hs hw hi, fun _ _ hb hq => step_request hb hq,
    fun _ hs hw => step_nothing hs hw, fun _ hb => step_busy hb⟩

end Sys2Proof.Machine
end

section
/-! SUPPORT. What each host command does, one equation per case of its meaning: before INIT, after it, and the
branches of a pixel write. -/

namespace Sys2Proof.Machine

open Sys2Proof Sys2Proof.Claims

/-- Every command but INIT has its meaning behind the guard on `INITD` (60_exceptions.md R203). -/
theorem exec_guarded {i : Instr} (hi : guarded i = true) :
    ∃ k : State → Result, ∀ s, exec i s = whenInit s k := by
  cases i with
  | init r => cases hi
  | sendmsb b => cases hi
  | sendlsb b => cases hi
  | _ => exact ⟨_, fun _ => rfl⟩

/-- Before INIT such a command sets its fault bit and does nothing else (60_exceptions.md R203). -/
theorem exec_of_not_initd {i : Instr} {s : State} (hi : guarded i = true) (hs : s.initd = false) :
    exec i s = .next { s with fault := faultSet s.fault .notInit } := by
  obtain ⟨k, hk⟩ := exec_guarded hi
  rw [hk, whenInit_of_not hs]

/-- The eight events of INIT leave every line low (42_refresh_sequencer.md R160). -/
theorem exec_init (r : Rot) (s : State) :
    exec (.init r) s =
      .next { s with
        rot := r
        initd := true
        lines := Levels.low
        trace := s.trace ++
          [.cfg .clk, .set .clk false, .cfg .data, .set .data false,
           .cfg .cs, .set .cs false, .cfg .inv, .set .inv false] } := by
  simp [exec, execInit, initLine, setLine, configure, Levels.low]

section AfterInit

variable {s : State} (hs : s.initd = true)
include hs

theorem exec_setrot (r : Rot) : exec (.setrot r) s = .next { s with rot := r } := by
  rw [exec, execSetrot, whenInit_of_initd hs]

theorem exec_getpix (x y : Int) :
    exec (.getpix x y) s = .next { s with fault := faultSet s.fault .unsupported } :=
  whenInit_of_initd hs _

theorem exec_setpix (x y : Int) (color : BitVec 16) :
    exec (.setpix x y color) s = pixelWrite Config.params x y (colorBit color) s :=
  whenInit_of_initd hs _

theorem exec_invpulse :
    exec .invpulse s =
      .next { s with
        lines := { s.lines with inv := false }
        trace := s.trace ++ [.set .inv true, .wait .inv, .set .inv false] } := by
  rw [exec, execInvpulse, whenInit_of_initd hs]
  simp [setLine, waitFor]

theorem exec_clear : exec .clear s = .next (clearFrame Config.params s) := by
  rw [exec, execClear, clearOn, whenInit_of_initd hs]

theorem exec_refresh : exec .refresh s = refreshFrame Config.params s := whenInit_of_initd hs _

end AfterInit

/-! ## The branches of a pixel write (41_pixel_address.md R131) -/

theorem pixelWrite_outOfBounds {p : Params} {x y : Int} (h : inBounds p x y = false) (c : Bool)
    (s : State) : pixelWrite p x y c s = .next s := by
  simp [pixelWrite, h]

theorem pixelWrite_xformRange {p : Params} {x y : Int} {s : State} (h : inBounds p x y = true)
    (hq : inBuffer p (bufferCoords p s.rot x y).1 (bufferCoords p s.rot x y).2 = false) (c : Bool) :
    pixelWrite p x y c s = .next { s with fault := faultSet s.fault .xformRange } := by
  simp [pixelWrite, h, hq]

/-- The write itself: the byte index is inside the buffer, so the access cannot fault (R135, R138). -/
theorem bitWrite_inBuffer {p : Params} {xb yb : Int} (h : inBuffer p xb yb = true) (c : Bool)
    (s : State) :
    bitWrite p xb yb c s =
      .next { s with
        buf := Memory.put p s.buf (byteIndex p xb yb)
          (writeBit (Memory.get p s.buf (byteIndex p xb yb)) (bitIndex xb) c) } :=
  withByte_of_lt p (byteIndex_lt p h).1 _ _

theorem pixelWrite_inBuffer {p : Params} {x y : Int} {s : State} (h : inBounds p x y = true)
    (hq : inBuffer p (bufferCoords p s.rot x y).1 (bufferCoords p s.rot x y).2 = true) (c : Bool) :
    pixelWrite p x y c s =
      bitWrite p (bufferCoords p s.rot x y).1 (bufferCoords p s.rot x y).2 c s := by
  simp [pixelWrite, h, hq]

/-- A pixel write answers a state that differs in `FAULT` and `BUF` at most, `BUF` still canonical. -/
theorem pixelWrite_completes (p : Params) (x y : Int) (c : Bool) {s : State}
    (hs : Memory.wf p s.buf) :
    ∃ (f : BitVec 4) (m : Memory), Memory.wf p m ∧
      pixelWrite p x y c s = .next { s with fault := f, buf := m } := by
  cases h : inBounds p x y with
  | false => exact ⟨s.fault, s.buf, hs, pixelWrite_outOfBounds h c s⟩
  | true =>
    cases hq : inBuffer p (bufferCoords p s.rot x y).1 (bufferCoords p s.rot x y).2 with
    | false => exact ⟨_, s.buf, hs, pixelWrite_xformRange h hq c⟩
    | true =>
      exact ⟨s.fault, _, Memory.wf_put p hs (byteIndex_lt p hq).1 _,
        (pixelWrite_inBuffer h hq c).trans (bitWrite_inBuffer hq c s)⟩

/-! ## The two frames (42_refresh_sequencer.md R162, R163) -/

theorem clearFrame_eq (p : Params) (s : State) :
    clearFrame p s =
      { s with
        buf := Memory.zero p s.buf
        lines := { s.lines with clk := false, data := false, cs := false }
        trace := s.trace ++
          framed (byteEvents .msb p.cmdClear ++ byteEvents .msb 0#8) } := by
  simp [clearFrame, select_eq, tx_eq, deselect_eq, framed, wireBit]

/-- The loop of REFRESH over indices of the buffer answers a state that differs in `CLK`, `DATA` and the
trace at most. -/
theorem refreshBytes_completes (p : Params) (is : List Nat) (his : ∀ i ∈ is, i < p.N)
    (cnt line : Nat) (s : State) :
    ∃ (clk data : Bool) (tr : List Event),
      refreshBytes p is cnt line s =
        .next { s with lines := { s.lines with clk := clk, data := data }, trace := tr } := by
  induction is generalizing cnt line s with
  | nil => exact ⟨s.lines.clk, s.lines.data, s.trace, rfl⟩
  | cons i is ih =>
    have ih := ih fun j hj => his j (List.mem_cons_of_mem _ hj)
    rw [refreshBytes, withByte_of_lt p (his i List.mem_cons_self)]
    split
    · obtain ⟨clk, data, tr, h⟩ := ih 0 (line + 1) _
      refine ⟨clk, data, tr, h.trans ?_⟩
      split <;> simp only [tx_eq]
    · obtain ⟨clk, data, tr, h⟩ := ih (cnt + 1) line _
      exact ⟨clk, data, tr, h.trans (by simp only [tx_eq])⟩

/-- REFRESH leaves `CLK`, `DATA` and `CS` low and changes nothing else but the trace: its last byte is
the dummy byte (42_refresh_sequencer.md R163, R171). -/
theorem refreshFrame_completes (p : Params) (s : State) :
    ∃ tr : List Event,
      refreshFrame p s =
        .next { s with
          lines := { s.lines with clk := false, data := false, cs := false }, trace := tr } := by
  obtain ⟨clk, data, tr, h⟩ := refreshBytes_completes p (List.range p.N)
    (fun _ hi => List.mem_range.mp hi) 0 1 (tx .lsb (lineByte 1) (tx .msb p.cmdWrite (select s)))
  rw [refreshFrame, h, andThen_next]
  simp only [tx_eq, select_eq, deselect_eq]
  exact ⟨_, rfl⟩

end Sys2Proof.Machine
end

section
/-! SUPPORT. Runs of command words: the state between commands, kept by every host command and every step. -/

namespace Sys2Proof.Machine

open Sys2Proof Sys2Proof.Claims

/-- The block between commands: idle, `BUF` canonical, and the lines low once INIT has run
(42_refresh_sequencer.md R171). -/
structure State.Rested (s : State) : Prop where
  ready : s.ready = true
  buf : Memory.wf Config.params s.buf
  lines : s.initd = true → s.lines = Levels.low

theorem Decoded.require_eq_instr {z : Bool} {op : BitVec 8} {i j : Instr} :
    Decoded.require z op j = .instr i ↔ z = true ∧ j = i := by
  cases z <;> simp [Decoded.require]

/-- No command word holds a transport request (30_encoding.md R90). -/
theorem hostCommand_of_decode {w : CmdWord} {i : Instr} (h : decode w = .instr i) :
    hostCommand i = true := by
  unfold decode at h
  split at h
  case h_8 => cases h
  all_goals
    obtain ⟨-, rfl⟩ := Decoded.require_eq_instr.mp h
    rfl

theorem State.Rested.with_fault {s : State} (hs : s.Rested) (f : BitVec 4) :
    State.Rested { s with fault := f } := ⟨hs.ready, hs.buf, hs.lines⟩

/-- After INIT every other host command completes, takes no further word and leaves the block rested. -/
theorem exec_guarded_keeps_rested {i : Instr} {s : State} (hi : guarded i = true) (hs : s.Rested)
    (hinit : s.initd = true) : ∃ t, exec i s = .next t ∧ t.cmds = s.cmds ∧ t.Rested := by
  have hlow := hs.lines hinit
  cases i with
  | init r => cases hi
  | setrot r => exact ⟨_, exec_setrot hinit r, rfl, hs.ready, hs.buf, hs.lines⟩
  | setpix x y color =>
    obtain ⟨f, m, hm, h⟩ := pixelWrite_completes Config.params x y (colorBit color) hs.buf
    exact ⟨_, (exec_setpix hinit x y color).trans h, rfl, hs.ready, hm, hs.lines⟩
  | getpix x y => exact ⟨_, exec_getpix hinit x y, rfl, hs.with_fault _⟩
  | clear =>
    refine ⟨_, exec_clear hinit, ?_⟩
    rw [clearFrame_eq, hlow]
    exact ⟨rfl, hs.ready, Memory.wf_zero _ hs.buf, fun _ => rfl⟩
  | refresh =>
    obtain ⟨tr, h⟩ := refreshFrame_completes Config.params s
    rw [hlow] at h
    exact ⟨_, (exec_refresh hinit).trans h, rfl, hs.ready, hs.buf, fun _ => rfl⟩
  | invpulse =>
    refine ⟨_, exec_invpulse hinit, rfl, hs.ready, hs.buf, fun _ => ?_⟩
    rw [hlow]
    rfl
  | sendmsb b => cases hi
  | sendlsb b => cases hi

/-- A host command is INIT or checks `INITD` (60_exceptions.md R203). -/
theorem init_or_guarded {i : Instr} (h : hostCommand i = true) :
    (∃ r, i = .init r) ∨ guarded i = true := by
  cases i with
  | init r => exact .inl ⟨r, rfl⟩
  | sendmsb b => cases h
  | sendlsb b => cases h
  | _ => exact .inr rfl

theorem exec_keeps_rested {i : Instr} {s : State} (hi : hostCommand i = true) (hs : s.Rested) :
    ∃ t, exec i s = .next t ∧ t.cmds = s.cmds ∧ t.Rested := by
  obtain ⟨r, rfl⟩ | hg := init_or_guarded hi
  · exact ⟨_, exec_init r s, rfl, hs.ready, hs.buf, fun _ => rfl⟩
  · cases hinit : s.initd with
    | false => exact ⟨_, exec_of_not_initd hg hinit, rfl, hs.with_fault _⟩
    | true => exact exec_guarded_keeps_rested hg hs hinit

/-- A step of the rested block completes, takes one word where there is one, and leaves it rested. -/
theorem step_keeps_rested {s : State} (hs : s.Rested) :
    ∃ t, step s = .next t ∧ t.cmds = s.cmds.tail ∧ t.Rested := by
  cases hw : s.cmds with
  | nil => exact ⟨s, step_nothing hs.ready hw, hw, hs⟩
  | cons w ws =>
    have htaken : State.Rested { s with cmds := ws } := ⟨hs.ready, hs.buf, hs.lines⟩
    cases hd : decode w with
    | instr i =>
      rw [step_word hs.ready hw hd]
      exact exec_keeps_rested (hostCommand_of_decode hd) htaken
    | illegal e => exact ⟨_, step_illegal_word hs.ready hw hd, rfl, htaken.with_fault _⟩

theorem run_succ_of_step {M : Host.Core} {s t : M.State} (h : M.step s = .next t) (k : Nat) :
    M.run (k + 1) s = M.run k t := by
  rw [Host.Core.run, h]

/-- A run of the rested block never stops, takes one word a step and leaves it rested. -/
theorem run_keeps_rested (k : Nat) {s : State} (hs : s.Rested) :
    ∃ t : State, core.run k s = .next t ∧ t.cmds = s.cmds.drop k ∧ t.Rested := by
  induction k generalizing s with
  | zero => exact ⟨s, rfl, rfl, hs⟩
  | succ k ih =>
    obtain ⟨u, hstep, hcmds, hu⟩ := step_keeps_rested hs
    obtain ⟨t, hrun, ht, hrest⟩ := ih hu
    refine ⟨t, (run_succ_of_step (M := core) hstep k).trans hrun, ?_, hrest⟩
    rw [ht, hcmds, List.drop_tail]

/-- The block is rested at reset, whatever words the host has yet to present (10_state.md R32). -/
theorem reset_rested (ws : List CmdWord) : State.Rested { State.reset with cmds := ws } :=
  ⟨rfl, Memory.wf_reset _, fun h => by cases h⟩

/-- Settles O50: the block is rested at reset and every step keeps it so, by induction on the number of
steps. -/
theorem runsCompleteWithLinesLow : Obligations.RunsCompleteWithLinesLow := by
  intro ws k
  obtain ⟨t, hrun, hcmds, ht⟩ := run_keeps_rested k (reset_rested ws)
  exact ⟨t, hrun, hcmds, ht.ready, ht.buf, ht.lines⟩

end Sys2Proof.Machine
end

section
/-! SUPPORT. The record of a run, that is `FAULT`, the latches and the trace: what a step adds to it does not depend on
what it holds (10_state.md R20, R24, R31). -/

namespace Sys2Proof.Machine

open Sys2Proof Sys2Proof.Claims

/-! ## Events on the latches and the trace (00_scope.md R14) -/

/-- An event applied to the latches: only `Set` changes one. -/
def Levels.apply (L : Levels) : Event → Levels
  | .set l v => L.put l v
  | .cfg _ => L
  | .wait _ => L

/-- The latches after a list of events. -/
def Levels.after (L : Levels) (es : List Event) : Levels := es.foldl Levels.apply L

@[simp] theorem Levels.after_append (L : Levels) (es fs : List Event) :
    L.after (es ++ fs) = (L.after es).after fs := List.foldl_append

theorem Levels.after_byteEvents (L : Levels) (o : Order) (b : Byte) :
    L.after (byteEvents o b) = { L with clk := false, data := wireBit o b 7 } := by
  simp [byteEvents, byteBits, List.range, List.range.loop, bitEvents, Levels.after, Levels.apply]

/-- The state after events: on the trace, and on the latches they drive. -/
def State.emit (s : State) (es : List Event) : State :=
  { s with lines := s.lines.after es, trace := s.trace ++ es }

@[simp] theorem emit_buf (s : State) (es : List Event) : (s.emit es).buf = s.buf := rfl

@[simp] theorem emit_nil (s : State) : s.emit [] = s := by
  simp [State.emit, Levels.after]

@[simp] theorem emit_emit (s : State) (es fs : List Event) :
    (s.emit es).emit fs = s.emit (es ++ fs) := by
  simp [State.emit]

theorem setLine_eq_emit (l : Line) (v : Bool) (s : State) : setLine l v s = s.emit [.set l v] := rfl
theorem waitFor_eq_emit (c : Delay) (s : State) : waitFor c s = s.emit [.wait c] := rfl

theorem tx_eq_emit (o : Order) (b : Byte) (s : State) : tx o b s = s.emit (byteEvents o b) := by
  rw [tx_eq, State.emit, Levels.after_byteEvents]

theorem select_eq_emit (s : State) : select s = s.emit [.set .cs true, .wait .settle] := by
  simp [select, waitFor_eq_emit, setLine_eq_emit]

theorem deselect_eq_emit (s : State) :
    deselect s = s.emit [.wait .hold, .set .cs false, .wait .deselect] := by
  simp [deselect, waitFor_eq_emit, setLine_eq_emit]

theorem clearFrame_eq_emit (p : Params) (s : State) :
    clearFrame p s =
      State.emit { s with buf := Memory.zero p s.buf }
        (framed (byteEvents .msb p.cmdClear ++ byteEvents .msb 0#8)) := by
  simp [clearFrame, select_eq_emit, tx_eq_emit, deselect_eq_emit, framed]

/-- The loop of REFRESH emits events that the buffer alone decides. -/
theorem refreshBytes_eq_emit (p : Params) (m : Memory) (is : List Nat) (his : ∀ i ∈ is, i < p.N)
    (cnt line : Nat) :
    ∃ es, ∀ s : State, s.buf = m → refreshBytes p is cnt line s = .next (s.emit es) := by
  induction is generalizing cnt line with
  | nil => exact ⟨[], fun s _ => by rw [emit_nil, refreshBytes]⟩
  | cons i is ih =>
    have ih := ih fun j hj => his j (List.mem_cons_of_mem _ hj)
    have hi := his i List.mem_cons_self
    by_cases hend : cnt + 1 = p.bytesPerLine
    · obtain ⟨es, hes⟩ := ih 0 (line + 1)
      refine ⟨byteEvents .lsb (Memory.get p m i) ++ byteEvents .msb 0#8 ++
        (if line + 1 ≤ p.H then byteEvents .lsb (lineByte (line + 1)) else []) ++ es, fun s hs => ?_⟩
      rw [refreshBytes, withByte_of_lt p hi, if_pos hend]
      split <;> simp [tx_eq_emit, hes, hs]
    · obtain ⟨es, hes⟩ := ih (cnt + 1) line
      refine ⟨byteEvents .lsb (Memory.get p m i) ++ es, fun s hs => ?_⟩
      rw [refreshBytes, withByte_of_lt p hi, if_neg hend]
      simp [tx_eq_emit, hes, hs]

theorem refreshFrame_eq_emit (p : Params) (m : Memory) :
    ∃ es, ∀ s : State, s.buf = m → refreshFrame p s = .next (s.emit es) := by
  obtain ⟨es, hes⟩ := refreshBytes_eq_emit p m (List.range p.N) (fun _ hi => List.mem_range.mp hi) 0 1
  refine ⟨[.set .cs true, .wait .settle] ++ byteEvents .msb p.cmdWrite ++
    byteEvents .lsb (lineByte 1) ++ es ++ byteEvents .msb 0#8 ++
    [.wait .hold, .set .cs false, .wait .deselect], fun s hs => ?_⟩
  simp [refreshFrame, select_eq_emit, tx_eq_emit, deselect_eq_emit, hes, hs]

/-! ## The record, and what an operation adds to it -/

/-- The state with another record: other fault bits, line levels and history. -/
def State.withRecord (s : State) (f : BitVec 4) (L : Levels) (tr : List Event) : State :=
  { s with fault := f, lines := L, trace := tr }

/-- From `s`, whatever its record, the operation answers `u` with the events `es` and the fault bits `bits`
added to the record; a canonical buffer stays canonical, and `INITD` once set stays set. -/
structure Effect (k : State → Result) (s u : State) (es : List Event) (bits : BitVec 4) : Prop where
  answers : ∀ f L tr, k (s.withRecord f L tr) =
    .next (u.withRecord (f ||| bits) (L.after es) (tr ++ es))
  buf : Memory.wf Config.params s.buf → Memory.wf Config.params u.buf
  initd : s.initd = true → u.initd = true

section

variable {k : State → Result} {s u : State}

theorem Effect.of_emit {es : List Event}
    (hk : ∀ f L tr, k (s.withRecord f L tr) = .next ((u.withRecord f L tr).emit es))
    (hbuf : Memory.wf Config.params s.buf → Memory.wf Config.params u.buf := by exact id)
    (hinit : s.initd = true → u.initd = true := by exact id) : Effect k s u es 0#4 :=
  ⟨fun f L tr => by rw [hk, BitVec.or_zero]; rfl, hbuf, hinit⟩

theorem Effect.of_silent (hk : ∀ f L tr, k (s.withRecord f L tr) = .next (u.withRecord f L tr))
    (hbuf : Memory.wf Config.params s.buf → Memory.wf Config.params u.buf := by exact id)
    (hinit : s.initd = true → u.initd = true := by exact id) : Effect k s u [] 0#4 :=
  .of_emit (fun f L tr => by rw [hk, emit_nil]) hbuf hinit

theorem Effect.of_fault {c : Cause}
    (hk : ∀ f L tr, k (s.withRecord f L tr) = .next (u.withRecord (faultSet f c) L tr))
    (hbuf : Memory.wf Config.params s.buf → Memory.wf Config.params u.buf := by exact id)
    (hinit : s.initd = true → u.initd = true := by exact id) : Effect k s u [] (1#4 <<< c.code) :=
  ⟨fun f L tr => by rw [hk, List.append_nil]; rfl, hbuf, hinit⟩

end

/-- What an operation answers is its effect on the record it was given. -/
theorem Effect.eq_of_next {k : State → Result} {s t u : State} {es : List Event} {bits : BitVec 4}
    (hu : Effect k s u es bits) (h : k s = .next t) :
    t = u.withRecord (s.fault ||| bits) (s.lines.after es) (s.trace ++ es) := by
  have := h.symm.trans (hu.answers s.fault s.lines s.trace)
  simpa using this

/-- Operations that answer alike on every record have one effect. -/
theorem Effect.congr {k k' : State → Result} {s s' u : State} {es : List Event} {bits : BitVec 4}
    (h : Effect k s u es bits)
    (hk : ∀ f L tr, k' (s'.withRecord f L tr) = k (s.withRecord f L tr)) (hbuf : s'.buf = s.buf)
    (hinit : s'.initd = s.initd) : Effect k' s' u es bits :=
  ⟨fun f L tr => (hk f L tr).trans (h.answers f L tr), fun hs => h.buf (hbuf ▸ hs),
    fun hs => h.initd (hinit ▸ hs)⟩

/-! ## The operations -/

theorem exec_transport (o : Order) (b : Byte) (s : State) :
    exec (transportInstr o b) s = .next (s.emit (byteEvents o b)) := by
  cases o with
  | msb => rw [transportInstr, exec, execSendmsb, tx_eq_emit]
  | lsb => rw [transportInstr, exec, execSendlsb, tx_eq_emit]

theorem bitWrite_effect {xb yb : Int} (h : inBuffer Config.params xb yb = true) (c : Bool)
    (s : State) :
    Effect (bitWrite Config.params xb yb c) s
      { s with
        buf := Memory.put Config.params s.buf (byteIndex Config.params xb yb)
          (writeBit (byteAt s (byteIndex Config.params xb yb)) (bitIndex xb) c) } [] 0#4 :=
  .of_silent (fun f L tr => bitWrite_inBuffer h c (s.withRecord f L tr))
    fun hs => Memory.wf_put _ hs (byteIndex_lt _ h).1 _

theorem pixelWrite_effect (x y : Int) (c : Bool) (s : State) :
    ∃ m bits, Effect (pixelWrite Config.params x y c) s { s with buf := m } [] bits := by
  cases h : inBounds Config.params x y with
  | false => exact ⟨_, _, .of_silent (fun _ _ _ => pixelWrite_outOfBounds h c _)⟩
  | true =>
    cases hq : inBuffer Config.params (bufferCoords Config.params s.rot x y).1
        (bufferCoords Config.params s.rot x y).2 with
    | false =>
      exact ⟨_, _, .of_fault
        (fun f L tr => pixelWrite_xformRange (s := s.withRecord f L tr) h hq c)⟩
    | true =>
      exact ⟨_, _, (bitWrite_effect hq c s).congr
        (fun f L tr => pixelWrite_inBuffer (s := s.withRecord f L tr) h hq c) rfl rfl⟩

theorem exec_guarded_effect {i : Instr} {s : State} (hi : guarded i = true) (hinit : s.initd = true) :
    ∃ u es bits, Effect (exec i) s u es bits := by
  have live : ∀ f L tr, (s.withRecord f L tr).initd = true := fun _ _ _ => hinit
  cases i with
  | init r => cases hi
  | sendmsb b => cases hi
  | sendlsb b => cases hi
  | setrot r =>
    exact ⟨{ s with rot := r }, _, _, .of_silent (fun f L tr => exec_setrot (live f L tr) r)⟩
  | setpix x y color =>
    obtain ⟨m, bits, h⟩ := pixelWrite_effect x y (colorBit color) s
    exact ⟨_, _, _, h.congr (fun f L tr => exec_setpix (live f L tr) x y color) rfl rfl⟩
  | getpix x y => exact ⟨s, _, _, .of_fault (fun f L tr => exec_getpix (live f L tr) x y)⟩
  | clear =>
    exact ⟨{ s with buf := Memory.zero Config.params s.buf }, _, _,
      .of_emit (fun f L tr => (exec_clear (live f L tr)).trans (congrArg _ (clearFrame_eq_emit _ _)))
        (Memory.wf_zero _)⟩
  | refresh =>
    obtain ⟨es, hes⟩ := refreshFrame_eq_emit Config.params s.buf
    exact ⟨s, es, _, .of_emit (fun f L tr => (exec_refresh (live f L tr)).trans (hes _ rfl))⟩
  | invpulse =>
    exact ⟨s, [.set .inv true, .wait .inv, .set .inv false], _,
      .of_emit (fun f L tr => exec_invpulse (live f L tr))⟩

/-- Every operation completes, and adds to the record without reading it. -/
theorem exec_effect (i : Instr) (s : State) : ∃ u es bits, Effect (exec i) s u es bits := by
  cases i with
  | init r =>
    exact ⟨{ s with rot := r, initd := true },
      [.cfg .clk, .set .clk false, .cfg .data, .set .data false, .cfg .cs, .set .cs false, .cfg .inv,
        .set .inv false], _, .of_emit (fun f L tr => exec_init r _) id fun _ => rfl⟩
  | sendmsb b => exact ⟨s, _, _, .of_emit (fun f L tr => exec_transport .msb b _)⟩
  | sendlsb b => exact ⟨s, _, _, .of_emit (fun f L tr => exec_transport .lsb b _)⟩
  | _ =>
    cases hinit : s.initd with
    | true => exact exec_guarded_effect rfl hinit
    | false =>
      exact ⟨s, _, _, .of_fault
        (fun f L tr => exec_of_not_initd (s := s.withRecord f L tr) rfl hinit)⟩

/-! ## The reference machine -/

theorem transportStep_effect (r : Transport) (s : State) :
    ∃ st es, Effect (fun s => .next (transportStep r s)) s { s with tst := st } es 0#4 := by
  obtain ⟨phase, o, sr, n⟩ := r
  cases phase with
  | low => exact ⟨_, [.set .clk false], .of_emit (fun _ _ _ => rfl)⟩
  | data => exact ⟨_, [.set .data (outBit o sr)], .of_emit (fun _ _ _ => rfl)⟩
  | high => exact ⟨_, [.set .clk true], .of_emit (fun _ _ _ => rfl)⟩
  | final => exact ⟨_, [.set .clk false], .of_emit (fun _ _ _ => rfl)⟩

/-- `S_DATA` issues the byte at its counter. -/
theorem frameStep_data (p : Params) (kind : Kind) (i cnt line : Nat) (s : State) :
    frameStep p ⟨.data, kind, i, cnt, line⟩ s =
      withByte p i s fun b =>
        .next (issue .lsb b
          (.frame ⟨if cnt + 1 = p.bytesPerLine then .term else .data, kind, i + 1, cnt + 1, line⟩) s) :=
  rfl

theorem frameStep_effect {p : Params} {f : Frame} {s t : State} (h : frameStep p f s = .next t) :
    ∃ u es, Effect (frameStep p f) s u es 0#4 := by
  obtain ⟨phase, kind, i, cnt, line⟩ := f
  cases phase with
  | csUp => exact ⟨{ s with seq := _ }, [.set .cs true], .of_emit (fun _ _ _ => rfl)⟩
  | settle => exact ⟨{ s with seq := _ }, [.wait .settle], .of_emit (fun _ _ _ => rfl)⟩
  | hold => exact ⟨{ s with seq := _ }, [.wait .hold], .of_emit (fun _ _ _ => rfl)⟩
  | csDown => exact ⟨{ s with seq := _ }, [.set .cs false], .of_emit (fun _ _ _ => rfl)⟩
  | desel => exact ⟨{ s with seq := _ }, [.wait .deselect], .of_emit (fun _ _ _ => rfl)⟩
  | cmd => cases kind <;> exact ⟨issue _ _ _ s, _, .of_silent (fun _ _ _ => rfl)⟩
  | data =>
    obtain ⟨hi, -⟩ := withByte_eq_next (frameStep_data .. ▸ h)
    exact ⟨issue .lsb (Memory.get p s.buf i) (.frame _) s, _, .of_silent
      (fun f L tr => (frameStep_data ..).trans (withByte_of_lt p hi (s.withRecord f L tr) _))⟩
  | clrDummy | addr | term | trail => exact ⟨issue _ _ _ s, _, .of_silent (fun _ _ _ => rfl)⟩

theorem seqStep_effect {p : Params} {s t : State} (h : seqStep p s = .next t) :
    ∃ u es, Effect (seqStep p) s u es 0#4 := by
  obtain ⟨buf, rot, initd, fault, lines, seq, tst, tq, trace, cmds⟩ := s
  cases seq with
  | idle => exact ⟨_, _, .of_silent (fun _ _ _ => rfl)⟩
  | frame f =>
    obtain ⟨u, es, hu⟩ := frameStep_effect h
    exact ⟨u, es, hu.congr (fun _ _ _ => rfl) rfl rfl⟩
  | invUp =>
    exact ⟨⟨buf, rot, initd, fault, lines, .invHold, tst, tq, trace, cmds⟩, [.set .inv true],
      .of_emit (fun _ _ _ => rfl)⟩
  | invHold =>
    exact ⟨⟨buf, rot, initd, fault, lines, .invDown, tst, tq, trace, cmds⟩, [.wait .inv],
      .of_emit (fun _ _ _ => rfl)⟩
  | invDown =>
    exact ⟨⟨buf, rot, initd, fault, lines, .idle, tst, tq, trace, cmds⟩, [.set .inv false],
      .of_emit (fun _ _ _ => rfl)⟩

theorem fsmStep_running {p : Params} {s : State} {r : Transport} (hr : s.tst = some r) :
    fsmStep p s = .next (transportStep r s) := by
  simp [fsmStep, hr]

theorem fsmStep_request {p : Params} {s : State} {q : TqWord} (hr : s.tst = none)
    (hq : s.tq = some q) :
    fsmStep p s = .next { s with tq := none, tst := some (Transport.load q) } := by
  simp [fsmStep, hr, hq]

theorem fsmStep_quiet {p : Params} {s : State} (hq : s.quiet) : fsmStep p s = seqStep p s := by
  simp [fsmStep, hq.1, hq.2]

theorem fsmStep_effect {p : Params} {s t : State} (h : fsmStep p s = .next t) :
    ∃ u es, Effect (fsmStep p) s u es 0#4 := by
  cases hr : s.tst with
  | some r =>
    obtain ⟨st, es, hu⟩ := transportStep_effect r s
    exact ⟨_, _, hu.congr (fun f L tr => fsmStep_running (s := s.withRecord f L tr) hr) rfl rfl⟩
  | none =>
    cases hq : s.tq with
    | some q =>
      exact ⟨{ s with tq := none, tst := some (Transport.load q) }, _,
        .of_silent (fun f L tr => fsmStep_request (s := s.withRecord f L tr) hr hq)⟩
    | none =>
      obtain ⟨u, es, hu⟩ := seqStep_effect ((fsmStep_quiet ⟨hr, hq⟩).symm.trans h)
      exact ⟨u, es, hu.congr (fun f L tr => fsmStep_quiet (s := s.withRecord f L tr) ⟨hr, hq⟩) rfl rfl⟩

/-! ## One step -/

theorem step_effect {s t : State} (h : step s = .next t) : ∃ u es bits, Effect step s u es bits := by
  cases hb : s.busy with
  | true =>
    obtain ⟨u, es, hu⟩ := fsmStep_effect ((step_busy hb).symm.trans h)
    exact ⟨u, es, _, hu.congr (fun f L tr => step_busy (s := s.withRecord f L tr) hb) rfl rfl⟩
  | false =>
    cases hq : s.tq with
    | some q =>
      obtain ⟨u, es, bits, hu⟩ := exec_effect (decodeTq q) { s with tq := none }
      exact ⟨u, es, bits,
        hu.congr (fun f L tr => step_request (s := s.withRecord f L tr) hb hq) rfl rfl⟩
    | none =>
      have hready : s.ready = true := State.ready_iff.mpr ⟨hb, hq⟩
      cases hw : s.cmds with
      | nil =>
        exact ⟨s, _, _,
          .of_silent (fun f L tr => step_nothing (s := s.withRecord f L tr) hready hw)⟩
      | cons w ws =>
        cases hd : decode w with
        | instr i =>
          obtain ⟨u, es, bits, hu⟩ := exec_effect i { s with cmds := ws }
          exact ⟨u, es, bits,
            hu.congr (fun f L tr => step_word (s := s.withRecord f L tr) hready hw hd) rfl rfl⟩
        | illegal e =>
          exact ⟨{ s with cmds := ws }, _, _, .of_fault
            (fun f L tr => step_illegal_word (s := s.withRecord f L tr) hready hw hd)⟩

/-- The effect of a step on the record it was given, and on any other. -/
theorem step_record {s t : State} (h : step s = .next t) :
    ∃ es bits, t.fault = s.fault ||| bits ∧ t.lines = s.lines.after es ∧ t.trace = s.trace ++ es ∧
      ∀ f L tr, step (s.withRecord f L tr) =
        .next (t.withRecord (f ||| bits) (L.after es) (tr ++ es)) := by
  obtain ⟨u, es, bits, hu⟩ := step_effect h
  have ht := hu.eq_of_next h
  subst ht
  exact ⟨es, bits, rfl, rfl, rfl, hu.answers⟩

/-! ## The statements -/

/-- Settles O30: the events a step adds are those of its effect. -/
theorem traceGrowsAndIsNotRead : Obligations.TraceGrowsAndIsNotRead := by
  intro s t h
  obtain ⟨es, bits, hfault, hlines, htrace, hall⟩ := step_record h
  refine ⟨es, htrace, fun tr => ?_⟩
  have := hall s.fault s.lines tr
  rwa [← hfault, ← hlines] at this

/-- Settles O31: the fault bits a step adds are those of its effect. -/
theorem faultIsNotRead : Obligations.FaultIsNotRead := by
  intro s t h
  obtain ⟨es, bits, hfault, hlines, htrace, hall⟩ := step_record h
  refine ⟨bits, hfault, fun f => ?_⟩
  have := hall f s.lines s.trace
  rwa [← htrace, ← hlines] at this

/-- Settles O32: the events of a step drive the latches, whatever they hold. -/
theorem latchesAreNotRead : Obligations.LatchesAreNotRead := by
  intro s t L h
  obtain ⟨es, bits, hfault, -, htrace, hall⟩ := step_record h
  refine ⟨L.after es, ?_⟩
  have := hall s.fault L s.trace
  rwa [← hfault, ← htrace] at this

theorem step_keeps_initd {s t : State} (h : step s = .next t) (hs : s.initd = true) :
    t.initd = true := by
  obtain ⟨u, es, bits, hu⟩ := step_effect h
  rw [hu.eq_of_next h]
  exact hu.initd hs

/-- Settles O33: a step adds bits to `FAULT`, and none of its effects clears `INITD`. -/
theorem initdAndFaultAreSticky : Obligations.InitdAndFaultAreSticky := by
  intro s t h
  obtain ⟨es, bits, hfault, -⟩ := step_record h
  refine ⟨step_keeps_initd h, fun k hk => by simp [hfault, hk], fun hclean => ?_⟩
  have hzero : s.fault ||| bits = 0#4 := by simpa [State.clean, hfault] using hclean
  simpa [State.clean] using (BitVec.or_eq_zero_iff.mp hzero).1

/-- Settles O45: the effect of every step keeps the form. -/
theorem memoryFormKeptByStep : Obligations.MemoryFormKeptByStep := by
  intro s t hs h
  obtain ⟨u, es, bits, hu⟩ := step_effect h
  rw [hu.eq_of_next h]
  exact hu.buf hs

/-! ## The latches and the trace (10_state.md R25) -/

/-- The levels hold what is tracked of the lines. -/
def Levels.Follows (L : Levels) (tr : Tracked) : Prop := ∀ l v, tr.get l = some v → L.get l = v

theorem Tracked.get_apply_set (tr : Tracked) (l k : Line) (v : Bool) :
    (tr.apply (.set l v)).get k = if k = l then some v else tr.get k := by
  cases l <;> cases k <;> rfl

theorem Levels.get_apply_set (L : Levels) (l k : Line) (v : Bool) :
    (L.apply (.set l v)).get k = if k = l then v else L.get k := by
  cases l <;> cases k <;> rfl

theorem Levels.Follows.apply {L : Levels} {tr : Tracked} (h : L.Follows tr) (e : Event) :
    (L.apply e).Follows (tr.apply e) := by
  cases e with
  | cfg l => exact h
  | wait c => exact h
  | set l w =>
    intro k v hv
    rw [Tracked.get_apply_set] at hv
    rw [Levels.get_apply_set]
    by_cases hk : k = l
    · rw [if_pos hk] at hv ⊢
      exact Option.some.inj hv
    · rw [if_neg hk] at hv ⊢
      exact h k v hv

theorem Levels.Follows.after {L : Levels} {tr : Tracked} (h : L.Follows tr) (es : List Event) :
    (L.after es).Follows (tr.after es) := by
  induction es generalizing L tr with
  | nil => exact h
  | cons e es ih => exact ih (h.apply e)

/-- Settles O46: a step's events drive the latches and the tracked levels alike. -/
theorem latchesFollowTheTrace : Obligations.LatchesFollowTheTrace := by
  intro s t hs h
  obtain ⟨es, bits, -, hlines, htrace, -⟩ := step_record h
  have hs : s.lines.Follows (Tracked.start.after s.trace) := hs
  intro l v hv
  rw [htrace, Tracked.after_append] at hv
  rw [hlines]
  exact hs.after es l v hv

end Sys2Proof.Machine
end

section
/-! SUPPORT. The machine's invariant, kept by every step (O48): the idle block through the rested state of a run, the
busy one row by row of the reference machines. -/

namespace Sys2Proof.Machine

open Sys2Proof Sys2Proof.Claims

/-! ## The invariant of the idle block -/

theorem State.ready_iff_idle {s : State} : s.ready = true ↔ s.seq = .idle ∧ s.quiet := by
  simp [State.ready, State.busy, State.quiet, and_assoc]

theorem State.Rested.inv {s : State} (hs : s.Rested) : s.Inv Config.params := by
  obtain ⟨hseq, hq⟩ := State.ready_iff_idle.mp hs.ready
  refine ⟨hs.buf, ?_, fun f hf => ?_⟩
  · simp only [State.linesOk, hseq]
    exact ⟨hq, hs.lines⟩
  · rw [hseq] at hf; cases hf

theorem State.Inv.rested {s : State} (hs : s.Inv Config.params) (hseq : s.seq = .idle) :
    s.Rested := by
  obtain ⟨hbuf, hlines, -⟩ := hs
  simp only [State.linesOk, hseq] at hlines
  exact ⟨State.ready_iff_idle.mpr ⟨hseq, hlines.1⟩, hbuf, hlines.2⟩

/-! ## The lines in each state of the sequencer -/

/-- The levels of the lines in the states of `SEQ` in which no request is pending or running; none in
`S_IDLE`, where they depend on `INITD`, and between the bytes of a frame, where they move. -/
def Seq.levels : Seq → Option Levels
  | .idle => none
  | .invUp => some .low
  | .invHold => some .pulsing
  | .invDown => some .pulsing
  | .frame f =>
    match f.phase with
    | .csUp => some .low
    | .settle => some .selected
    | .cmd => some .selected
    | .csDown => some .selected
    | .desel => some .low
    | _ => none

theorem State.linesOk_of_levels {s : State} {L : Levels} (h : s.seq.levels = some L) :
    s.linesOk ↔ s.initd = true ∧ s.quiet ∧ s.lines = L := by
  unfold State.linesOk
  cases hseq : s.seq with
  | frame f =>
    obtain ⟨phase, kind, i, cnt, line⟩ := f
    rw [hseq] at h
    cases phase <;> cases h <;> rfl
  | idle => rw [hseq] at h; cases h
  | invUp | invHold | invDown => rw [hseq] at h; cases h; rfl

theorem State.linesOk.still {s : State} {q : Seq} {L : Levels} (hs : s.linesOk) (hseq : s.seq = q)
    (hL : q.levels = some L) : s.initd = true ∧ s.lines = L := by
  obtain ⟨hinit, -, hlines⟩ := (State.linesOk_of_levels (hseq ▸ hL)).mp hs
  exact ⟨hinit, hlines⟩

theorem State.linesOk_of_sends {s : State} {f : Frame} (hseq : s.seq = .frame f)
    (hf : (Seq.frame f).levels = none) :
    s.linesOk ↔ s.initd = true ∧ s.sending ∧ (f.phase = .hold → s.sendingZero) := by
  obtain ⟨phase, kind, i, cnt, line⟩ := f
  simp only [State.linesOk, hseq]
  cases phase with
  | hold => simpa using fun _ hz => hz.1
  | clrDummy | addr | data | term | trail => simp
  | csUp | settle | cmd | csDown | desel => cases hf

/-- A request is pending or running only between the bytes of a frame. -/
theorem State.linesOk.sends {s : State} (hs : s.linesOk) (hq : ¬ s.quiet) :
    ∃ f, s.seq = .frame f ∧ (Seq.frame f).levels = none := by
  cases hl : s.seq.levels with
  | some L => exact absurd ((State.linesOk_of_levels hl).mp hs).2.1 hq
  | none =>
    cases hseq : s.seq with
    | idle =>
      simp only [State.linesOk, hseq] at hs
      exact absurd hs.1 hq
    | frame f => exact ⟨f, rfl, hseq ▸ hl⟩
    | _ => rw [hseq] at hl; cases hl

/-! ## The encoder's rows (40_transport.md R117) -/

section Encoder

variable {s : State}

theorem transportStep_keeps_sending {r : Transport} (hr : s.tst = some r) (hs : s.sending) :
    (transportStep r s).sending := by
  obtain ⟨hcs, hinv, -, hrun⟩ := hs
  obtain ⟨htq, hok⟩ := hrun r hr
  obtain ⟨phase, o, sr, n⟩ := r
  cases phase with
  | low => exact ⟨hcs, hinv, fun h => (by cases h), fun _ h => by cases h; exact ⟨htq, hok⟩⟩
  | data => exact ⟨hcs, hinv, fun h => (by cases h), fun _ h => by cases h; exact ⟨htq, hok⟩⟩
  | high =>
    refine ⟨hcs, hinv, fun h => (by cases h), fun _ h => ?_⟩
    cases h
    refine ⟨htq, ?_⟩
    simp only [Transport.ok] at hok ⊢
    by_cases hn : n + 1 < 8
    · simp [hn]
    · simp only [if_neg hn]; omega
  | final => exact ⟨hcs, hinv, fun _ => rfl, fun _ h => by cases h⟩

theorem outBit_zero (o : Order) : outBit o 0#8 = false := by cases o <;> rfl

theorem shiftOut_zero (o : Order) : shiftOut o 0#8 = 0#8 := by cases o <;> rfl

/-- While a zero byte is sent, `DATA` is low from its first bit on. -/
theorem transportStep_keeps_sendingZero {r : Transport} (hr : s.tst = some r) (hs : s.sendingZero) :
    (transportStep r s).sendingZero := by
  obtain ⟨hsend, -, -, hzero⟩ := hs
  obtain ⟨-, -, -, hrun⟩ := id hsend
  obtain ⟨htq, hok⟩ := hrun r hr
  obtain ⟨hsr, hdata⟩ := hzero r hr
  refine ⟨transportStep_keeps_sending hr hsend, ?_⟩
  obtain ⟨phase, o, sr, n⟩ := r
  subst hsr
  have pending : ∀ q, s.tq = some q → TqWord.byte q = 0#8 := by simp [htq]
  cases phase with
  | low =>
    refine ⟨fun h => (by cases h), pending, fun _ h => ?_⟩
    cases h
    exact ⟨rfl, fun hn => hdata (.inr (hn.resolve_left (by simp)))⟩
  | data =>
    refine ⟨fun h => (by cases h), pending, fun _ h => ?_⟩
    cases h
    exact ⟨rfl, fun _ => outBit_zero o⟩
  | high =>
    refine ⟨fun h => (by cases h), pending, fun _ h => ?_⟩
    cases h
    exact ⟨shiftOut_zero o, fun _ => hdata (.inl rfl)⟩
  | final =>
    have hn : 1 ≤ n := by simp only [Transport.ok] at hok; omega
    exact ⟨fun _ _ => hdata (.inr hn), pending, fun _ h => by cases h⟩

/-- The row `T_IDLE`: the request has gone into the encoder's latches. -/
theorem load_keeps_sending {q : TqWord} (hs : s.sending) :
    State.sending { s with tq := none, tst := some (Transport.load q) } := by
  obtain ⟨hcs, hinv, -, -⟩ := hs
  refine ⟨hcs, hinv, fun h => (by cases h), fun _ h => ?_⟩
  cases h
  exact ⟨rfl, by simp [Transport.ok, Transport.load]⟩

theorem load_keeps_sendingZero {q : TqWord} (hq : s.tq = some q) (hs : s.sendingZero) :
    State.sendingZero { s with tq := none, tst := some (Transport.load q) } := by
  obtain ⟨hsend, -, hbyte, -⟩ := hs
  refine ⟨load_keeps_sending hsend, fun h => (by cases h), fun _ h => (by cases h), fun _ h => ?_⟩
  cases h
  exact ⟨hbyte q hq, by simp [Transport.load]⟩

end Encoder

/-- A step of the encoder's machine leaves `SEQ` and `INITD`, so the lines stay right if it keeps what
holds between bytes. -/
theorem linesOk_of_sending_kept {s t : State} (hs : s.linesOk) (hq : ¬ s.quiet) (hseq : t.seq = s.seq)
    (hinit : t.initd = s.initd) (hsend : s.sending → t.sending)
    (hzero : s.sendingZero → t.sendingZero) : t.linesOk := by
  obtain ⟨f, hf, hl⟩ := hs.sends hq
  obtain ⟨hi, hss, hsz⟩ := (State.linesOk_of_sends hf hl).mp hs
  exact (State.linesOk_of_sends (hseq.trans hf) hl).mpr
    ⟨hinit.trans hi, hsend hss, fun h => hzero (hsz h)⟩

/-! ## The sequencer's rows (42_refresh_sequencer.md R167) -/

section Sequencer

variable {s : State}

theorem sending_of_selected (hq : s.quiet) (hL : s.lines = Levels.selected) : s.sending := by
  obtain ⟨htst, -⟩ := hq
  simp [State.sending, hL, Levels.selected, htst]

/-- Once the last dummy byte has been sent only `CS` is high. -/
theorem selected_of_sendingZero (hq : s.quiet) (hs : s.sendingZero) : s.lines = Levels.selected := by
  obtain ⟨⟨hcs, hinv, hclk, -⟩, hdata, -, -⟩ := hs
  refine levels_ext_get fun l => ?_
  cases l with
  | clk => exact hclk hq.1
  | data => exact hdata hq.1 hq.2
  | cs => exact hcs
  | inv => exact hinv

/-- A request issued between the bytes of a frame; the last one, before `S_HOLD`, is of the dummy byte. -/
theorem issue_linesOk {f : Frame} {o : Order} {b : Byte} (hinit : s.initd = true) (hs : s.sending)
    (htst : s.tst = none) (hf : (Seq.frame f).levels = none) (hb : f.phase = .hold → b = 0#8) :
    (issue o b (.frame f) s).linesOk := by
  obtain ⟨hcs, hinv, hclk, -⟩ := hs
  have running : ∀ r, (issue o b (.frame f) s).tst ≠ some r := by simp [htst]
  have hsend : (issue o b (.frame f) s).sending :=
    ⟨hcs, hinv, fun _ => hclk htst, fun r hr => absurd hr (running r)⟩
  refine (State.linesOk_of_sends rfl hf).mpr ⟨hinit, hsend, fun hp => ⟨hsend, fun _ h => (by cases h),
    fun q hq => ?_, fun r hr => absurd hr (running r)⟩⟩
  cases hq
  rw [encodeTq_byte, hb hp]

/-- The rows that send a byte issue a request and go on to a row between bytes; the byte issued before
`S_HOLD` is the dummy byte. -/
theorem frameStep_issues {p : Params} {f : Frame} {t : State}
    (hf : f.phase ∈ [.cmd, .clrDummy, .addr, .data, .term, .trail])
    (h : frameStep p f s = .next t) :
    ∃ o b f', t = issue o b (.frame f') s ∧ (Seq.frame f').levels = none ∧
      (f'.phase = .hold → b = 0#8) := by
  obtain ⟨phase, kind, i, cnt, line⟩ := f
  cases phase with
  | cmd => cases kind <;> cases h <;> exact ⟨_, _, _, rfl, rfl, fun hp => by cases hp⟩
  | addr => cases h; exact ⟨_, _, _, rfl, rfl, fun hp => by cases hp⟩
  | clrDummy | trail => cases h; exact ⟨_, _, _, rfl, rfl, fun _ => rfl⟩
  | data =>
    rw [frameStep_data] at h
    obtain ⟨-, h⟩ := withByte_eq_next h
    cases h
    refine ⟨_, _, _, rfl, ?_⟩
    by_cases hlast : cnt + 1 = p.bytesPerLine <;> simp [hlast, Seq.levels]
  | term =>
    cases h
    refine ⟨_, _, _, rfl, ?_, fun _ => rfl⟩
    by_cases hmore : line + 1 ≤ p.H <;> simp [hmore, Seq.levels]
  | csUp | settle | hold | csDown | desel => simp at hf

theorem frameStep_keeps_linesOk {p : Params} {f : Frame} {t : State} (hseq : s.seq = .frame f)
    (hs : s.linesOk) (hq : s.quiet) (h : frameStep p f s = .next t) : t.linesOk := by
  have sends := fun hf => (State.linesOk_of_sends hseq hf).mp hs
  obtain ⟨phase, kind, i, cnt, line⟩ := f
  cases phase with
  | csUp =>
    obtain ⟨hinit, hL⟩ := hs.still hseq rfl
    cases h
    exact (State.linesOk_of_levels rfl).mpr ⟨hinit, hq, by rw [setLine_lines, hL]; rfl⟩
  | settle =>
    obtain ⟨hinit, hL⟩ := hs.still hseq rfl
    cases h
    exact (State.linesOk_of_levels rfl).mpr ⟨hinit, hq, hL⟩
  | cmd =>
    obtain ⟨hinit, hL⟩ := hs.still hseq rfl
    obtain ⟨o, b, f', rfl, hf', hb⟩ := frameStep_issues (by simp) h
    exact issue_linesOk hinit (sending_of_selected hq hL) hq.1 hf' hb
  | clrDummy | addr | data | term | trail =>
    obtain ⟨hinit, hsend, -⟩ := sends rfl
    obtain ⟨o, b, f', rfl, hf', hb⟩ := frameStep_issues (by simp) h
    exact issue_linesOk hinit hsend hq.1 hf' hb
  | hold =>
    obtain ⟨hinit, -, hzero⟩ := sends rfl
    cases h
    exact (State.linesOk_of_levels rfl).mpr ⟨hinit, hq, selected_of_sendingZero hq (hzero rfl)⟩
  | csDown =>
    obtain ⟨hinit, hL⟩ := hs.still hseq rfl
    cases h
    exact (State.linesOk_of_levels rfl).mpr ⟨hinit, hq, by rw [setLine_lines, hL]; rfl⟩
  | desel =>
    obtain ⟨-, hL⟩ := hs.still hseq rfl
    cases h
    exact ⟨hq, fun _ => hL⟩

theorem seqStep_keeps_linesOk {p : Params} {t : State} (hs : s.linesOk) (hq : s.quiet)
    (h : seqStep p s = .next t) : t.linesOk := by
  unfold seqStep at h
  cases hseq : s.seq with
  | idle => rw [hseq] at h; cases h; exact hs
  | frame f => rw [hseq] at h; exact frameStep_keeps_linesOk hseq hs hq h
  | invUp =>
    obtain ⟨hinit, hL⟩ := hs.still hseq rfl
    rw [hseq] at h
    cases h
    exact (State.linesOk_of_levels rfl).mpr ⟨hinit, hq, by rw [setLine_lines, hL]; rfl⟩
  | invHold =>
    obtain ⟨hinit, hL⟩ := hs.still hseq rfl
    rw [hseq] at h
    cases h
    exact (State.linesOk_of_levels rfl).mpr ⟨hinit, hq, hL⟩
  | invDown =>
    obtain ⟨hinit, hL⟩ := hs.still hseq rfl
    rw [hseq] at h
    cases h
    exact ⟨hq, fun _ => by rw [setLine_lines, hL]; rfl⟩

end Sequencer

/-! ## One step of the reference machine -/

/-- What a step of the reference machine is: the encoder's row, the request put to it, or the sequencer's
row with the transport in `T_IDLE`. -/
theorem fsmStep_cases {p : Params} {s t : State} (h : fsmStep p s = .next t) :
    (∃ r, s.tst = some r ∧ t = transportStep r s) ∨
    (∃ q, s.tst = none ∧ s.tq = some q ∧ t = { s with tq := none, tst := some (Transport.load q) }) ∨
    (s.quiet ∧ seqStep p s = .next t) := by
  cases hr : s.tst with
  | some r => rw [fsmStep_running hr] at h; cases h; exact .inl ⟨r, rfl, rfl⟩
  | none =>
    cases hq : s.tq with
    | some q => rw [fsmStep_request hr hq] at h; cases h; exact .inr (.inl ⟨q, rfl, rfl, rfl⟩)
    | none => exact .inr (.inr ⟨⟨hr, hq⟩, fsmStep_quiet ⟨hr, hq⟩ ▸ h⟩)

theorem transportStep_seq (r : Transport) (s : State) : (transportStep r s).seq = s.seq := by
  unfold transportStep; split <;> rfl

theorem transportStep_initd (r : Transport) (s : State) : (transportStep r s).initd = s.initd := by
  unfold transportStep; split <;> rfl

theorem fsmStep_keeps_linesOk {p : Params} {s t : State} (hs : s.linesOk) (h : fsmStep p s = .next t) :
    t.linesOk := by
  obtain ⟨r, hr, rfl⟩ | ⟨q, hr, hq, rfl⟩ | ⟨hq, h⟩ := fsmStep_cases h
  · exact linesOk_of_sending_kept hs (fun hq => by simp [hq.1] at hr) (transportStep_seq r s)
      (transportStep_initd r s) (transportStep_keeps_sending hr) (transportStep_keeps_sendingZero hr)
  · exact linesOk_of_sending_kept hs (fun h => by simp [h.2] at hq) rfl rfl load_keeps_sending
      (load_keeps_sendingZero hq)
  · exact seqStep_keeps_linesOk hs hq h

/-! ## The counters of a frame (42_refresh_sequencer.md R163) -/

theorem countersOk_of_frame {p : Params} {s : State} {f : Frame} (hseq : s.seq = .frame f)
    (hf : f.ok p) : s.countersOk p := fun g hg => by
  rw [hseq] at hg
  cases hg
  exact hf

theorem countersOk_of_idle {p : Params} {s : State} (hseq : s.seq = .idle) : s.countersOk p :=
  fun f hf => by rw [hseq] at hf; cases hf

/-- The bytes of `line - 1` lines and of one more are those of `line` lines. -/
theorem bytes_of_line_end {p : Params} {line : Nat} (hl : 1 ≤ line) :
    (line - 1) * p.bytesPerLine + p.bytesPerLine = line * p.bytesPerLine := by
  rw [← Nat.succ_mul, Nat.succ_eq_add_one, Nat.sub_add_cancel hl]

theorem frameStep_keeps_countersOk {p : Params} {f : Frame} {s t : State} (hf : f.ok p)
    (h : frameStep p f s = .next t) : t.countersOk p := by
  obtain ⟨phase, kind, i, cnt, line⟩ := f
  cases kind with
  | clear =>
    cases phase with
    | addr | data | term | trail => exact hf.elim
    | desel => cases h; exact countersOk_of_idle rfl
    | csUp | settle | cmd | clrDummy | hold | csDown => cases h; exact countersOk_of_frame rfl hf
  | refresh =>
    cases phase with
    | clrDummy => exact hf.elim
    | desel => cases h; exact countersOk_of_idle rfl
    | csUp | settle | trail | hold | csDown => cases h; exact countersOk_of_frame rfl hf
    | cmd =>
      cases h
      obtain ⟨rfl, rfl, rfl⟩ := hf
      exact countersOk_of_frame rfl ⟨le_rfl, Laws.Config.H_pos p, rfl, by simp⟩
    | addr =>
      cases h
      obtain ⟨h1, hH, rfl, hi⟩ := hf
      exact countersOk_of_frame rfl ⟨h1, hH, Laws.Config.bytesPerLine_pos p, hi⟩
    | data =>
      rw [frameStep_data] at h
      obtain ⟨-, h⟩ := withByte_eq_next h
      cases h
      refine countersOk_of_frame rfl ?_
      obtain ⟨h1, hH, hcnt, hi⟩ := hf
      dsimp only at h1 hH hcnt hi
      have hend := bytes_of_line_end (p := p) h1
      by_cases hlast : cnt + 1 = p.bytesPerLine
      · rw [if_pos hlast]
        exact ⟨h1, hH, hlast, show i + 1 = line * p.bytesPerLine by omega⟩
      · have hcnt' : cnt + 1 < p.bytesPerLine := by omega
        rw [if_neg hlast]
        exact ⟨h1, hH, hcnt', by rw [hi]; rfl⟩
    | term =>
      cases h
      refine countersOk_of_frame rfl ?_
      obtain ⟨h1, hH, -, hi⟩ := hf
      dsimp only at h1 hH hi
      by_cases hmore : line + 1 ≤ p.H
      · rw [if_pos hmore]
        exact ⟨Nat.le_add_left 1 line, hmore, rfl, hi⟩
      · have hlast : line = p.H := by omega
        rw [if_neg hmore, hi, hlast, ← Laws.Config.N_eq]
        exact ⟨rfl, rfl, rfl⟩

theorem countersOk_of_seq {p : Params} {s t : State} (hs : s.countersOk p) (hseq : t.seq = s.seq) :
    t.countersOk p := fun f hf => hs f (hseq ▸ hf)

theorem seqStep_keeps_countersOk {p : Params} {s t : State} (hs : s.countersOk p)
    (h : seqStep p s = .next t) : t.countersOk p := by
  unfold seqStep at h
  cases hseq : s.seq with
  | frame f => rw [hseq] at h; exact frameStep_keeps_countersOk (hs f hseq) h
  | idle => rw [hseq] at h; cases h; exact hs
  | _ => rw [hseq] at h; cases h; intro f hf; cases hf

theorem fsmStep_keeps_countersOk {p : Params} {s t : State} (hs : s.countersOk p)
    (h : fsmStep p s = .next t) : t.countersOk p := by
  obtain ⟨r, -, rfl⟩ | ⟨q, -, -, rfl⟩ | ⟨-, h⟩ := fsmStep_cases h
  · exact countersOk_of_seq hs (transportStep_seq r s)
  · exact countersOk_of_seq hs rfl
  · exact seqStep_keeps_countersOk hs h

/-! ## The statements -/

theorem step_keeps_inv_of_idle {s t : State} (hs : s.Inv Config.params) (hseq : s.seq = .idle)
    (h : step s = .next t) : t.Inv Config.params := by
  obtain ⟨u, hu, -, hrest⟩ := step_keeps_rested (hs.rested hseq)
  rw [hu] at h
  cases h
  exact hrest.inv

theorem step_keeps_inv_of_busy {s t : State} (hs : s.Inv Config.params) (hb : s.busy = true)
    (h : step s = .next t) : t.Inv Config.params := by
  obtain ⟨hbuf, hlines, hcount⟩ := hs
  have hfsm := (step_busy hb).symm.trans h
  exact ⟨memoryFormKeptByStep s t hbuf h, fsmStep_keeps_linesOk hlines hfsm,
    fsmStep_keeps_countersOk hcount hfsm⟩

/-- Settles O48: with `SEQ` in `S_IDLE` the block is rested and runs a whole command; elsewhere it is busy and
the reference machine takes one of its rows. -/
theorem invariantKeptByStep : Obligations.InvariantKeptByStep := by
  intro s t hs h
  by_cases hseq : s.seq = .idle
  · exact step_keeps_inv_of_idle hs hseq h
  · exact step_keeps_inv_of_busy hs (by simp [State.busy, hseq]) h

/-- Settles O47: the block is rested at reset, and its empty trace has driven no line. -/
theorem resetMeetsTheInvariant : Obligations.ResetMeetsTheInvariant :=
  ⟨(reset_rested []).inv, fun l _ h => by cases l <;> cases h⟩

/-- Settles O6: the block is rested at reset, and no line is driven while `INITD` is 0. -/
theorem resetLeavesTheStatedValues : Obligations.ResetLeavesTheStatedValues :=
  ⟨rfl, rfl, rfl, rfl, (reset_rested []).ready, Memory.wf_reset _, fun _ => rfl⟩

end Sys2Proof.Machine
end

section
/-! SUPPORT. Who writes what (10_state.md R20). -/

namespace Sys2Proof.Machine

open Sys2Proof Sys2Proof.Claims

/-- Settles O29: before INIT a guarded command writes `FAULT` alone; otherwise by the effect of each. -/
theorem onlyTheListedWriters : Obligations.OnlyTheListedWriters := by
  intro i s t h
  by_cases hbefore : guarded i = true ∧ s.initd = false
  · rw [exec_of_not_initd hbefore.1 hbefore.2] at h
    cases h
    simp
  have live : guarded i = true → s.initd = true := by simpa using hbefore
  cases i with
  | init r => rw [exec_init] at h; cases h; simp
  | setrot r => rw [exec_setrot (live rfl)] at h; cases h; simp
  | setpix x y color =>
    rw [exec_setpix (live rfl)] at h
    obtain ⟨m, bits, hm⟩ := pixelWrite_effect x y (colorBit color) s
    rw [hm.eq_of_next h]
    simp [State.withRecord, Levels.after]
  | getpix x y => rw [exec_getpix (live rfl)] at h; cases h; simp
  | clear => rw [exec_clear (live rfl), clearFrame_eq] at h; cases h; simp
  | refresh =>
    obtain ⟨tr, htr⟩ := refreshFrame_completes Config.params s
    rw [exec_refresh (live rfl), htr] at h
    cases h
    simp
  | invpulse => rw [exec_invpulse (live rfl)] at h; cases h; simp
  | sendmsb b => rw [exec, execSendmsb, tx_eq] at h; cases h; simp
  | sendlsb b => rw [exec, execSendlsb, tx_eq] at h; cases h; simp

end Sys2Proof.Machine
end

section
/-! SUPPORT. The pixel buffer: the byte and the bit of a place (20_memory.md R51), a pixel write repeated (R56), and
that no step from the invariant leaves the buffer (R50). -/

namespace Sys2Proof.Machine

open Sys2Proof Sys2Proof.Claims

/-! ## The byte and the bit of a place (20_memory.md R51) -/

theorem inBuffer_iff {p : Params} {x y : Int} :
    inBuffer p x y = true ↔ 0 ≤ x ∧ x < p.W ∧ 0 ≤ y ∧ y < p.H := by
  simp [inBuffer, and_assoc]

theorem bitIndex_eq (x : Int) : (bitIndex x : Int) = x % 8 :=
  Int.toNat_of_nonneg (Int.emod_nonneg x (by decide))

section Place

variable {p : Params} {x y : Int} (h : inBuffer p x y = true)
include h

/-- A line of the buffer holds whole bytes, so a row of pixels is a row of bytes. -/
theorem byteIndex_eq : (byteIndex p x y : Int) = y * p.bytesPerLine + x / 8 := by
  obtain ⟨hx, -, hy, -⟩ := inBuffer_iff.mp h
  have hdiv : (y * p.W + x) / 8 = y * p.bytesPerLine + x / 8 := by
    have hbits : y * p.W + x = y * p.bytesPerLine * 8 + x := by
      rw [Laws.Config.W_eq]; push_cast; ring
    rw [hbits, Int.add_comm, Int.add_mul_ediv_right _ _ (by decide), Int.add_comm]
  have hrow : 0 ≤ y * (p.bytesPerLine : Int) := Int.mul_nonneg hy (Int.natCast_nonneg _)
  rw [byteIndex, hdiv]
  omega

/-- The byte index gives the row back. -/
theorem byteIndex_div_bytesPerLine : (byteIndex p x y : Int) / p.bytesPerLine = y := by
  obtain ⟨hx, hxW, -, -⟩ := inBuffer_iff.mp h
  have hW := Laws.Config.W_eq p
  have hpos := Laws.Config.bytesPerLine_pos p
  rw [byteIndex_eq h, Int.add_comm, Int.add_mul_ediv_right _ _ (by omega),
    Int.ediv_eq_zero_of_lt (by omega) (by omega), Int.zero_add]

end Place

/-- Two places with the same byte and bit are one: the byte index gives the row and the byte of the row. -/
theorem place_unique {p : Params} {x y x' y' : Int} (h : inBuffer p x y = true)
    (h' : inBuffer p x' y' = true) (hbyte : byteIndex p x' y' = byteIndex p x y)
    (hbit : bitIndex x' = bitIndex x) : x' = x ∧ y' = y := by
  have hrow : y' = y := by
    rw [← byteIndex_div_bytesPerLine h', hbyte, byteIndex_div_bytesPerLine h]
  subst hrow
  have hcol : x' / 8 = x / 8 := by
    have := byteIndex_eq h
    have := byteIndex_eq h'
    omega
  have := bitIndex_eq x
  have := bitIndex_eq x'
  omega

/-- Settles O36: the closed forms of byte and bit, their ranges, and that they determine the place. -/
theorem pixelLayout : Obligations.PixelLayout := by
  intro p x y h
  have hline : p.W / 8 = p.bytesPerLine := Nat.mul_div_cancel_left _ (by decide)
  obtain ⟨hN, h8⟩ := byteIndex_lt p h
  refine ⟨?_, bitIndex_eq x, hN, h8, fun x' y' => place_unique h⟩
  rw [hline]
  exact byteIndex_eq h

/-! ## A pixel write repeated (20_memory.md R56, 60_exceptions.md R209) -/

/-- A fault bit set again stays. -/
theorem faultSet_faultSet (f : BitVec 4) (k : Cause) : faultSet (faultSet f k) k = faultSet f k := by
  rw [faultSet, faultSet, BitVec.or_assoc, BitVec.or_self]

theorem raiseFault_again {k : Cause} {s t : State} (h : raiseFault k s = .next t) :
    raiseFault k t = .next t := by
  rw [raiseFault_eq] at h ⊢
  cases h
  rw [faultSet_faultSet]

/-- A bit written again with the same value stays. -/
theorem writeBit_writeBit (b : Byte) (k : Nat) (c : Bool) :
    writeBit (writeBit b k c) k c = writeBit b k c := by
  apply BitVec.eq_of_getLsbD_eq
  intro j hj
  rw [writeBit_getLsbD _ _ _ _ hj, writeBit_getLsbD _ _ _ _ hj]
  split <;> rfl

theorem Memory.get_put_same {p : Params} {m : Memory} (hm : Memory.wf p m) (a : Nat) (v : Byte) :
    Memory.get p (Memory.put p m a v) a = v := by
  rw [Memory.get_put p m a v a hm.1, if_pos rfl]

/-- A byte written twice is written once. -/
theorem Memory.put_put_same {p : Params} {m : Memory} (hm : Memory.wf p m) {a : Nat} (ha : a < p.N)
    (v : Byte) : Memory.put p (Memory.put p m a v) a v = Memory.put p m a v := by
  have h := Memory.put_get p (Memory.wf_put p hm ha v) ha
  rwa [Memory.get_put_same hm] at h

section Again

variable {p : Params} {c : Bool} {s t : State} (hs : Memory.wf p s.buf)
include hs

theorem bitWrite_again {xb yb : Int} (hq : inBuffer p xb yb = true)
    (h : bitWrite p xb yb c s = .next t) : bitWrite p xb yb c t = .next t := by
  rw [bitWrite_inBuffer hq] at h ⊢
  cases h
  simp only [Memory.get_put_same hs, writeBit_writeBit,
    Memory.put_put_same hs (byteIndex_lt p hq).1]

theorem pixelWrite_keeps_rot_initd {x y : Int} (h : pixelWrite p x y c s = .next t) :
    t.rot = s.rot ∧ t.initd = s.initd := by
  obtain ⟨f, m, -, hm⟩ := pixelWrite_completes p x y c hs
  cases hm.symm.trans h
  exact ⟨rfl, rfl⟩

theorem pixelWrite_again {x y : Int} (h : pixelWrite p x y c s = .next t) :
    pixelWrite p x y c t = .next t := by
  obtain ⟨hrot, -⟩ := pixelWrite_keeps_rot_initd hs h
  cases hin : inBounds p x y with
  | false => exact pixelWrite_outOfBounds hin c t
  | true =>
    cases hq : inBuffer p (bufferCoords p s.rot x y).1 (bufferCoords p s.rot x y).2 with
    | false =>
      rw [pixelWrite_xformRange hin hq] at h
      rw [pixelWrite_xformRange hin (hrot ▸ hq)]
      exact raiseFault_again h
    | true =>
      rw [pixelWrite_inBuffer hin hq] at h
      rw [pixelWrite_inBuffer hin (hrot ▸ hq), hrot]
      exact bitWrite_again hs hq h

end Again

/-- Settles O14: before INIT the fault bit is set again; after it, by the branches of a pixel write. -/
theorem setpixTwiceIsOnce : Obligations.SetpixTwiceIsOnce := by
  intro x y color s t hs h
  cases hinit : s.initd with
  | false =>
    rw [exec_of_not_initd rfl hinit] at h
    have hinit' : t.initd = false := by cases h; exact hinit
    rw [exec_of_not_initd rfl hinit']
    exact raiseFault_again h
  | true =>
    rw [exec_setpix hinit] at h
    obtain ⟨-, hinit'⟩ := pixelWrite_keeps_rot_initd hs h
    rw [exec_setpix (hinit'.trans hinit)]
    exact pixelWrite_again hs h

/-! ## No step from the invariant stops (20_memory.md R50) -/

/-- The counter of `S_DATA` is inside the buffer: its line is one of the `H` and its byte one of the line's. -/
theorem Frame.ok.data_lt {p : Params} {kind : Kind} {i cnt line : Nat}
    (hf : Frame.ok p ⟨.data, kind, i, cnt, line⟩) : i < p.N := by
  cases kind with
  | clear => exact hf.elim
  | refresh =>
    obtain ⟨h1, hH, hcnt, hi⟩ := hf
    dsimp only at h1 hH hcnt hi
    calc i = (line - 1) * p.bytesPerLine + cnt := hi
      _ < (line - 1) * p.bytesPerLine + p.bytesPerLine := Nat.add_lt_add_left hcnt _
      _ = line * p.bytesPerLine := bytes_of_line_end h1
      _ ≤ p.H * p.bytesPerLine := Nat.mul_le_mul_right _ hH
      _ = p.N := (Laws.Config.N_eq p).symm

theorem frameStep_completes {p : Params} {f : Frame} (hf : f.ok p) (s : State) :
    ∃ t, frameStep p f s = .next t := by
  obtain ⟨phase, kind, i, cnt, line⟩ := f
  cases phase with
  | data => exact ⟨_, (frameStep_data ..).trans (withByte_of_lt p hf.data_lt s _)⟩
  | cmd => cases kind <;> exact ⟨_, rfl⟩
  | _ => exact ⟨_, rfl⟩

theorem seqStep_completes {p : Params} {s : State} (hs : s.countersOk p) :
    ∃ t, seqStep p s = .next t := by
  unfold seqStep
  cases hseq : s.seq with
  | frame f => exact frameStep_completes (hs f hseq) s
  | _ => exact ⟨_, rfl⟩

theorem fsmStep_completes {p : Params} {s : State} (hs : s.countersOk p) :
    ∃ t, fsmStep p s = .next t := by
  cases hr : s.tst with
  | some r => exact ⟨_, fsmStep_running hr⟩
  | none =>
    cases hq : s.tq with
    | some q => exact ⟨_, fsmStep_request hr hq⟩
    | none => rw [fsmStep_quiet ⟨hr, hq⟩]; exact seqStep_completes hs

/-- Settles O49: with `SEQ` in `S_IDLE` the block is rested and completes a command; elsewhere the counters
are in range and the reference machine completes a row. -/
theorem stepNeverStops : Obligations.StepNeverStops := by
  intro s hs
  by_cases hseq : s.seq = .idle
  · obtain ⟨t, ht, -⟩ := step_keeps_rested (hs.rested hseq)
    exact ⟨t, ht⟩
  · obtain ⟨-, -, hcount⟩ := hs
    rw [step_busy (by simp [State.busy, hseq])]
    exact fsmStep_completes hcount

end Sys2Proof.Machine
end

section
/-! SUPPORT. The encoding, both ways: what the decoder answers said once, the word of its fields, the formats and the
match/mask table read field by field, and the statements about them. -/

namespace Sys2Proof

open Sys2Proof.Machine Sys2Proof.Claims

/-! ## The decoder (30_encoding.md R85) -/

/-- Everything the decoder answers: one row of the opcode map each, behind the reserved bits of its format. -/
theorem decode_eq_instr_iff {w : CmdWord} {i : Instr} :
    decode w = .instr i ↔
      (w.op = 1#8 ∧ w.zeroR = true ∧ .init (.ofBits w.rot) = i) ∨
      (w.op = 2#8 ∧ w.zeroR = true ∧ .setrot (.ofBits w.rot) = i) ∨
      (w.op = 3#8 ∧ w.zeroP = true ∧ .setpix w.x.toInt w.y.toInt w.color = i) ∨
      (w.op = 4#8 ∧ w.zeroQ = true ∧ .getpix w.x.toInt w.y.toInt = i) ∨
      (w.op = 5#8 ∧ w.zeroN = true ∧ .clear = i) ∨
      (w.op = 6#8 ∧ w.zeroN = true ∧ .refresh = i) ∨
      (w.op = 7#8 ∧ w.zeroN = true ∧ .invpulse = i) := by
  unfold decode
  split
  case h_8 => simp_all [BitVec.toNat_eq]
  all_goals
    rename_i ho
    simp [BitVec.toNat_eq, ho, Decoded.require_eq_instr]

theorem CmdWord.zeroR_iff {w : CmdWord} :
    w.zeroR = true ↔ w.z = 0#6 ∧ w.x = 0#16 ∧ w.y = 0#16 ∧ w.color = 0#16 := by
  simp [CmdWord.zeroR, and_assoc]

theorem CmdWord.zeroP_iff {w : CmdWord} : w.zeroP = true ↔ w.z = 0#6 ∧ w.rot = 0#2 := by
  simp [CmdWord.zeroP]

theorem CmdWord.zeroQ_iff {w : CmdWord} :
    w.zeroQ = true ↔ w.z = 0#6 ∧ w.rot = 0#2 ∧ w.color = 0#16 := by
  simp [CmdWord.zeroQ, and_assoc]

theorem CmdWord.zeroN_iff {w : CmdWord} :
    w.zeroN = true ↔ w.z = 0#6 ∧ w.rot = 0#2 ∧ w.x = 0#16 ∧ w.y = 0#16 ∧ w.color = 0#16 := by
  simp [CmdWord.zeroN, and_assoc]

/-! ## The two round trips (30_encoding.md R80 to R86, R90) -/

/-- Settles O1: the fields of an encoded operation are its operands, and its reserved fields are 0. -/
theorem decodeEncodeRoundTrip : Obligations.DecodeEncodeRoundTrip := by
  intro i hi
  cases i with
  | init r | setrot r => simp [encode, decodeRequest, decode_eq_instr_iff, CmdWord.zeroR_iff]
  | setpix x y color =>
    obtain ⟨hx, hy⟩ := Bool.and_eq_true_iff.mp hi
    simp [encode, decodeRequest, decode_eq_instr_iff, CmdWord.zeroP_iff, toInt_ofInt_of_coordOk hx,
      toInt_ofInt_of_coordOk hy]
  | getpix x y =>
    obtain ⟨hx, hy⟩ := Bool.and_eq_true_iff.mp hi
    simp [encode, decodeRequest, decode_eq_instr_iff, CmdWord.zeroQ_iff, toInt_ofInt_of_coordOk hx,
      toInt_ofInt_of_coordOk hy]
  | clear | refresh | invpulse =>
    simp [encode, decodeRequest, decode_eq_instr_iff, CmdWord.zeroN_iff]
  | sendmsb b | sendlsb b => simp [encode, decodeRequest, decodeTq, transportInstr]

/-- A word with `z` 0 is assembled from its other fields (30_encoding.md R80). -/
theorem cmdWord_fields {w : CmdWord} (hz : w.z = 0#6) : cmdWord w.op w.rot w.x w.y w.color = w :=
  CmdWord.ext_fields (by simp) (by simp [hz]) (by simp) (by simp) (by simp) (by simp)

theorem encode_of_decode {w : CmdWord} {i : Instr} (h : decode w = .instr i) :
    encode i = .command w := by
  rcases decode_eq_instr_iff.mp h with ⟨ho, hr, rfl⟩ | ⟨ho, hr, rfl⟩ | ⟨ho, hr, rfl⟩ |
    ⟨ho, hr, rfl⟩ | ⟨ho, hr, rfl⟩ | ⟨ho, hr, rfl⟩ | ⟨ho, hr, rfl⟩
  case inl | inr.inl =>
    obtain ⟨hz, hx, hy, hc⟩ := CmdWord.zeroR_iff.mp hr
    rw [← cmdWord_fields hz]; simp [encode, ho, hx, hy, hc]
  case inr.inr.inl =>
    obtain ⟨hz, hrot⟩ := CmdWord.zeroP_iff.mp hr
    rw [← cmdWord_fields hz]; simp [encode, ho, hrot]
  case inr.inr.inr.inl =>
    obtain ⟨hz, hrot, hc⟩ := CmdWord.zeroQ_iff.mp hr
    rw [← cmdWord_fields hz]; simp [encode, ho, hrot, hc]
  all_goals
    obtain ⟨hz, hrot, hx, hy, hc⟩ := CmdWord.zeroN_iff.mp hr
    rw [← cmdWord_fields hz]; simp [encode, ho, hrot, hx, hy, hc]

theorem wf_of_decode {w : CmdWord} {i : Instr} (h : decode w = .instr i) : i.wf = true := by
  rcases decode_eq_instr_iff.mp h with ⟨-, -, rfl⟩ | ⟨-, -, rfl⟩ | ⟨-, -, rfl⟩ | ⟨-, -, rfl⟩ |
    ⟨-, -, rfl⟩ | ⟨-, -, rfl⟩ | ⟨-, -, rfl⟩ <;> simp [Instr.wf, coordOk_toInt]

/-- A request is its order and its byte (30_encoding.md R90). -/
theorem encodeTq_fields (t : TqWord) : encodeTq t.order t.byte = t := by
  rw [encodeTq, TqWord.order, TqWord.byte, Order.toBit_ofBit]
  ext i hi
  rw [BitVec.getElem_append]
  split
  · simpa using BitVec.getLsbD_eq_getElem (by omega)
  · obtain rfl : i = 8 := by omega
    simp

/-- Settles O2: a legal word has its format's reserved fields 0, so it is assembled from its other fields. -/
theorem encodeDecodeRoundTrip : Obligations.EncodeDecodeRoundTrip := by
  refine ⟨fun w i h => ⟨wf_of_decode h, encode_of_decode h⟩, fun t => ?_⟩
  have ht := encodeTq_fields t
  rw [decodeTq]
  cases ho : TqWord.order t <;> rw [ho] at ht <;> exact ⟨rfl, congrArg _ ht⟩

/-! ## Illegal words (30_encoding.md R87) -/

theorem cmdWord_low (op : BitVec 8) :
    (cmdWord op 0#2 0#16 0#16 0#16).extractLsb' 0 56 = 0#56 := by
  revert op; decide

theorem CmdWord.zeroN_iff_extractLsb' {w : CmdWord} :
    w.zeroN = true ↔ w.extractLsb' 0 56 = 0#56 := by
  rw [CmdWord.zeroN_iff]
  constructor
  · rintro ⟨hz, hrot, hx, hy, hc⟩
    rw [← cmdWord_fields hz, hrot, hx, hy, hc]
    exact cmdWord_low w.op
  · intro h
    have field (start len : Nat) (hlen : start + len ≤ 56) : w.extractLsb' start len = 0#len := by
      ext i hi
      simpa [show start + i < 56 by omega] using congrArg (fun u => u.getLsbD (start + i)) h
    exact ⟨field 50 6 (by decide), field 48 2 (by decide), field 32 16 (by decide),
      field 16 16 (by decide), field 0 16 (by decide)⟩

/-- The formats, with their reserved bits as the decoder reads them. -/
theorem legalShape_iff {w : CmdWord} :
    LegalShape w ↔
      ((w.op = 1#8 ∨ w.op = 2#8) ∧ w.zeroR = true) ∨ (w.op = 3#8 ∧ w.zeroP = true) ∨
      (w.op = 4#8 ∧ w.zeroQ = true) ∨ ((w.op = 5#8 ∨ w.op = 6#8 ∨ w.op = 7#8) ∧ w.zeroN = true) := by
  rw [CmdWord.zeroR_iff, CmdWord.zeroP_iff, CmdWord.zeroQ_iff, CmdWord.zeroN_iff_extractLsb',
    LegalShape]

theorem exists_decode_iff_legalShape {w : CmdWord} :
    (∃ i, decode w = .instr i) ↔ LegalShape w := by
  simp only [decode_eq_instr_iff, legalShape_iff, exists_or, exists_and_left, exists_eq', and_true,
    or_and_right, or_assoc]

theorem exists_illegal_iff {w : CmdWord} : (∃ e, decode w = .illegal e) ↔ ¬ LegalShape w := by
  rw [← exists_decode_iff_legalShape]
  cases decode w <;> simp

/-! ## The match/mask table (30_encoding.md R85) -/

/-- The rows of the table, from their opcode and the mask of their format. -/
theorem commandTable_eq :
    commandTable =
      [⟨cmdWord 1#8 0#2 0#16 0#16 0#16, 0xFFFCFFFFFFFFFFFF#64⟩,
       ⟨cmdWord 2#8 0#2 0#16 0#16 0#16, 0xFFFCFFFFFFFFFFFF#64⟩,
       ⟨cmdWord 3#8 0#2 0#16 0#16 0#16, 0xFFFF000000000000#64⟩,
       ⟨cmdWord 4#8 0#2 0#16 0#16 0#16, 0xFFFF00000000FFFF#64⟩,
       ⟨cmdWord 5#8 0#2 0#16 0#16 0#16, 0xFFFFFFFFFFFFFFFF#64⟩,
       ⟨cmdWord 6#8 0#2 0#16 0#16 0#16, 0xFFFFFFFFFFFFFFFF#64⟩,
       ⟨cmdWord 7#8 0#2 0#16 0#16 0#16, 0xFFFFFFFFFFFFFFFF#64⟩] := by
  decide

section Selects

variable {w : CmdWord} (op : BitVec 8) (mask : CmdWord)

/-- A row of the table, field by field. -/
theorem selects_iff :
    TableRow.selects ⟨cmdWord op 0#2 0#16 0#16 0#16, mask⟩ w = true ↔
      w.op &&& mask.op = op ∧ w.z &&& mask.z = 0#6 ∧ w.rot &&& mask.rot = 0#2 ∧
        w.x &&& mask.x = 0#16 ∧ w.y &&& mask.y = 0#16 ∧ w.color &&& mask.color = 0#16 := by
  simp [TableRow.selects, CmdWord.and_eq_iff]

/-- A field under a mask of ones is the field. -/
theorem and_ones :
    (∀ b : BitVec 8, b &&& 0xFF#8 = b) ∧ (∀ b : BitVec 6, b &&& 0x3F#6 = b) ∧
      (∀ b : BitVec 2, b &&& 0x3#2 = b) ∧ ∀ b : BitVec 16, b &&& 0xFFFF#16 = b :=
  ⟨fun _ => BitVec.and_allOnes, fun _ => BitVec.and_allOnes, fun _ => BitVec.and_allOnes,
    fun _ => BitVec.and_allOnes⟩

theorem selects_formatR :
    TableRow.selects ⟨cmdWord op 0#2 0#16 0#16 0#16, 0xFFFCFFFFFFFFFFFF#64⟩ w = true ↔
      w.op = op ∧ w.zeroR = true := by
  rw [selects_iff, CmdWord.zeroR_iff]
  simp [CmdWord.op, CmdWord.z, CmdWord.rot, CmdWord.x, CmdWord.y, CmdWord.color, and_ones]

theorem selects_formatP :
    TableRow.selects ⟨cmdWord op 0#2 0#16 0#16 0#16, 0xFFFF000000000000#64⟩ w = true ↔
      w.op = op ∧ w.zeroP = true := by
  rw [selects_iff, CmdWord.zeroP_iff]
  simp [CmdWord.op, CmdWord.z, CmdWord.rot, CmdWord.x, CmdWord.y, CmdWord.color, and_ones]

theorem selects_formatQ :
    TableRow.selects ⟨cmdWord op 0#2 0#16 0#16 0#16, 0xFFFF00000000FFFF#64⟩ w = true ↔
      w.op = op ∧ w.zeroQ = true := by
  rw [selects_iff, CmdWord.zeroQ_iff]
  simp [CmdWord.op, CmdWord.z, CmdWord.rot, CmdWord.x, CmdWord.y, CmdWord.color, and_ones]

theorem selects_formatN :
    TableRow.selects ⟨cmdWord op 0#2 0#16 0#16 0#16, 0xFFFFFFFFFFFFFFFF#64⟩ w = true ↔
      w.op = op ∧ w.zeroN = true := by
  rw [selects_iff, CmdWord.zeroN_iff]
  simp [CmdWord.op, CmdWord.z, CmdWord.rot, CmdWord.x, CmdWord.y, CmdWord.color, and_ones]

end Selects

theorem exists_selects_iff_legalShape {w : CmdWord} :
    (∃ r ∈ commandTable, r.selects w = true) ↔ LegalShape w := by
  simp only [commandTable_eq, List.exists_mem_cons_iff, List.not_mem_nil, false_and, exists_false,
    or_false, selects_formatR, selects_formatP, selects_formatQ, selects_formatN, legalShape_iff,
    or_and_right, or_assoc]

/-- The rows of the table stand in the order of their opcodes, which count from 1. -/
theorem op_of_selects {w : CmdWord} {k : Nat} {r : TableRow} (hr : commandTable[k]? = some r)
    (h : r.selects w = true) : w.op.toNat = k + 1 := by
  rw [commandTable_eq] at hr
  have hk : k < 7 := (List.getElem?_eq_some_iff.mp hr).1
  interval_cases k <;> cases hr <;>
    simp only [selects_formatR, selects_formatP, selects_formatQ, selects_formatN] at h <;>
    rw [h.1] <;> rfl

/-- Settles O4: a row fixes the opcode, and each row another one. -/
theorem tableRowsExclusive : Obligations.TableRowsExclusive := by
  intro w j k r q hr hq hrw hqw
  have hj := op_of_selects hr hrw
  have hk := op_of_selects hq hqw
  omega

/-- Settles O3: the formats and the rows of the table both say which words the decoder accepts, and the step
takes any other word with its fault. -/
theorem illegalWordsFaultAndDoNothingElse : Obligations.IllegalWordsFaultAndDoNothingElse := by
  refine ⟨fun w => exists_illegal_iff, fun w => ?_, fun s w ws hs hw hl => ?_⟩
  · rw [exists_illegal_iff, ← exists_selects_iff_legalShape]
    simp
  · obtain ⟨e, he⟩ := exists_illegal_iff.mpr hl
    exact step_illegal_word hs hw he

/-- Settles O5: the decoder run on each of the nine. -/
theorem wordsOfEveryFormatDecode : Obligations.WordsOfEveryFormatDecode := by
  unfold Obligations.WordsOfEveryFormatDecode
  decide

end Sys2Proof
end

section
/-! SUPPORT. The refresh frame: its bytes by position, the loop of REFRESH as the frame's bytes, and what the receiver
samples of it. -/

namespace Sys2Proof.Machine

open Sys2Proof Sys2Proof.Claims

/-! ## The frame by position (30_encoding.md R91, R92) -/

section Blocks

variable {α : Type} {f : Nat → List α} {L : Nat} (hf : ∀ i, (f i).length = L)
include hf

theorem length_blocks (n : Nat) : ((List.range n).flatMap f).length = n * L := by
  simp [List.length_flatMap, hf]

/-- In a row of blocks of one length, an element is found by its block and its place there. -/
theorem getElem?_blocks {n r j : Nat} (hr : r < n) (hj : j < L) :
    ((List.range n).flatMap f)[r * L + j]? = (f r)[j]? := by
  induction n with
  | zero => cases hr
  | succ n ih =>
    rw [List.range_succ, List.flatMap_append, List.getElem?_append, length_blocks hf]
    rcases Nat.lt_succ_iff_lt_or_eq.mp hr with hr | rfl
    · have : (r + 1) * L ≤ n * L := Nat.mul_le_mul_right _ hr
      rw [if_pos (by rw [Nat.add_mul] at this; omega), ih hr]
    · simp

end Blocks

theorem bytesPerLine_eq (p : Params) : p.W / 8 = p.bytesPerLine := by
  rw [Laws.Config.W_eq]; omega

theorem length_lineBytes (p : Params) (m : Memory) (row : Nat) :
    (lineBytes p m row).length = 2 + p.W / 8 := by
  simp [lineBytes, bytesPerLine_eq]; omega

/-- A place inside a line of the frame: the first byte, the lines before it, and the place in the line. -/
theorem getElem?_frameBytes {p : Params} (m : Memory) {r j : Nat} (hr : r < p.H)
    (hj : j < 2 + p.W / 8) :
    (frameBytes p m)[1 + r * (2 + p.W / 8) + j]? = (lineBytes p m r)[j]? := by
  have hline := getElem?_blocks (length_lineBytes p m) hr hj
  obtain ⟨hin, -⟩ := List.getElem?_eq_some_iff.mp
    (hline.trans (List.getElem?_eq_getElem (by rwa [length_lineBytes])))
  rw [Nat.add_assoc, Nat.add_comm 1, frameBytes, List.getElem?_cons_succ,
    List.getElem?_append_left hin, hline]

/-- A 1-based line address fits its byte: there are at most 255 lines (42_refresh_sequencer.md R170). -/
theorem toNat_lineByte {p : Params} {r : Nat} (hr : r < p.H) : (lineByte (r + 1)).toNat = r + 1 := by
  have := Laws.Config.H_le p
  rw [lineByte, BitVec.toNat_ofNat]
  omega

theorem length_frameBytes (p : Params) (m : Memory) : (frameBytes p m).length = frameLength p := by
  simp only [frameBytes, List.length_cons, List.length_append, List.length_nil,
    length_blocks (length_lineBytes p m), frameLength]
  omega

/-- Settles O18: a line is a block of `2 + W/8` bytes after the first byte of the frame. -/
theorem refreshFrameByPosition : Obligations.RefreshFrameByPosition := by
  intro p m
  refine ⟨length_frameBytes p m, rfl, fun r hr => ⟨⟨lineByte (r + 1), ?_, toNat_lineByte hr⟩,
    fun c hc => ?_, ?_⟩, ?_⟩
  · exact getElem?_frameBytes m hr (j := 0) (by omega)
  · rw [Nat.add_assoc, getElem?_frameBytes m hr (by omega)]
    rw [bytesPerLine_eq] at hc ⊢
    simp [lineBytes, Nat.add_comm 1, hc, List.getElem?_append_left]
  · rw [Nat.add_assoc, getElem?_frameBytes m hr (by omega), bytesPerLine_eq]
    simp [lineBytes, Nat.add_comm 1]
  · rw [← length_frameBytes p m, ← List.getLast?_eq_getElem?, frameBytes, ← List.cons_append,
      List.getLast?_concat]

/-! ## The loop of REFRESH (42_refresh_sequencer.md R163) -/

@[simp] theorem bytesEvents_append (bs cs : List (Order × Byte)) :
    bytesEvents (bs ++ cs) = bytesEvents bs ++ bytesEvents cs := List.flatMap_append

@[simp] theorem bytesEvents_cons (o : Order) (b : Byte) (bs : List (Order × Byte)) :
    bytesEvents ((o, b) :: bs) = byteEvents o b ++ bytesEvents bs := rfl

@[simp] theorem bytesEvents_nil : bytesEvents [] = [] := rfl

/-- The address the loop sends in front of a line, and nothing behind the last one. -/
def addressEvents (p : Params) (line : Nat) : List Event :=
  if line ≤ p.H then byteEvents .lsb (lineByte line) else []

/-- A data byte that does not end its line. -/
theorem refreshBytes_inLine {p : Params} {i : Nat} (hi : i < p.N) {cnt : Nat}
    (hcnt : cnt + 1 ≠ p.bytesPerLine) (is : List Nat) (line : Nat) (s : State) :
    refreshBytes p (i :: is) cnt line s =
      refreshBytes p is (cnt + 1) line (s.emit (byteEvents .lsb (Memory.get p s.buf i))) := by
  rw [refreshBytes, withByte_of_lt p hi, if_neg hcnt, tx_eq_emit]

/-- The last data byte of a line, with the terminator and what stands in front of the next line. -/
theorem refreshBytes_endOfLine {p : Params} {i : Nat} (hi : i < p.N) {cnt : Nat}
    (hcnt : cnt + 1 = p.bytesPerLine) (is : List Nat) (line : Nat) (s : State) :
    refreshBytes p (i :: is) cnt line s =
      refreshBytes p is 0 (line + 1)
        (s.emit (byteEvents .lsb (Memory.get p s.buf i) ++ byteEvents .msb 0#8 ++
          addressEvents p (line + 1))) := by
  rw [refreshBytes, withByte_of_lt p hi, if_pos hcnt, addressEvents]
  split <;> simp [tx_eq_emit]

/-- What is left to send of a line: its data bytes from an index on, and the terminator. -/
def restOfLine (p : Params) (m : Memory) (i n : Nat) : List (Order × Byte) :=
  (List.range' i n).map (fun j => (.lsb, Memory.get p m j)) ++ [(.msb, 0#8)]

theorem lineBytes_eq (p : Params) (m : Memory) (row : Nat) :
    lineBytes p m row =
      (.lsb, lineByte (row + 1)) :: restOfLine p m (row * p.bytesPerLine) p.bytesPerLine := by
  simp [lineBytes, restOfLine, List.range'_eq_map_range, Function.comp_def]

/-- The loop over the rest of a line. -/
theorem refreshBytes_line {p : Params} {n i cnt : Nat} (hn : i + n < p.N)
    (hcnt : cnt + (n + 1) = p.bytesPerLine) (js : List Nat) (line : Nat) (s : State) :
    refreshBytes p (List.range' i (n + 1) ++ js) cnt line s =
      refreshBytes p js 0 (line + 1)
        (s.emit (bytesEvents (restOfLine p s.buf i (n + 1)) ++ addressEvents p (line + 1))) := by
  induction n generalizing i cnt s with
  | zero =>
    exact (refreshBytes_endOfLine hn hcnt js line s).trans (by simp [restOfLine])
  | succ n ih =>
    rw [List.range'_succ, List.cons_append, refreshBytes_inLine (by omega) (by omega),
      ih (by omega) (by omega)]
    simp [restOfLine, List.range'_succ]

/-- The loop over the last `k` lines, the address of the first of them sent: the lines of the picture. -/
theorem refreshBytes_lines (p : Params) {k row : Nat} (hk : row + k = p.H) (s : State) :
    refreshBytes p (List.range' (row * p.bytesPerLine) (k * p.bytesPerLine)) 0 (row + 1)
        (s.emit (addressEvents p (row + 1))) =
      .next (s.emit (bytesEvents ((List.range' row k).flatMap (lineBytes p s.buf)))) := by
  induction k generalizing row s with
  | zero => simp [addressEvents, hk.symm, refreshBytes, bytesEvents]
  | succ k ih =>
    have hN : (row + 1) * p.bytesPerLine ≤ p.N := by
      rw [Laws.Config.N_eq]; exact Nat.mul_le_mul_right _ (by omega)
    have hrows : List.range' (row * p.bytesPerLine) ((k + 1) * p.bytesPerLine) =
        List.range' (row * p.bytesPerLine) (p.extraGroups + 1) ++
          List.range' ((row + 1) * p.bytesPerLine) (k * p.bytesPerLine) := by
      rw [Nat.succ_mul row, Nat.succ_mul k, Nat.add_comm (k * _)]
      exact List.range'_append_1.symm
    have hfit : row * p.bytesPerLine + p.extraGroups < p.N := by
      rw [Nat.succ_mul] at hN
      exact Nat.lt_of_lt_of_le (Nat.add_lt_add_left (Nat.lt_succ_self _) _) hN
    rw [hrows, refreshBytes_line hfit (Nat.zero_add _), ← emit_emit, ih (by omega), List.range'_succ,
      List.flatMap_cons, lineBytes_eq, addressEvents, if_pos (by omega)]
    simp [Params.bytesPerLine]

/-- REFRESH sends the frame of 30_encoding.md R92 inside one chip-select bracket. -/
theorem refreshFrame_eq (p : Params) (s : State) :
    refreshFrame p s = .next (s.emit (framed (bytesEvents (frameBytes p s.buf)))) := by
  have haddr (t : State) : tx .lsb (lineByte 1) t = t.emit (addressEvents p (0 + 1)) := by
    rw [tx_eq_emit, addressEvents, if_pos (Laws.Config.H_pos p)]
  have hN : List.range p.N = List.range' (0 * p.bytesPerLine) (p.H * p.bytesPerLine) := by
    rw [Nat.zero_mul, Laws.Config.N_eq, List.range_eq_range']
  rw [refreshFrame, haddr, hN, refreshBytes_lines p (Nat.zero_add p.H)]
  simp [tx_eq_emit, select_eq_emit, deselect_eq_emit, framed, frameBytes, List.range_eq_range']

/-! ## What the receiver samples (30_encoding.md R93, 40_transport.md R118) -/

theorem Tracked.after_bytesEvents_cs (t : Tracked) (bs : List (Order × Byte)) :
    (t.after (bytesEvents bs)).cs = t.cs := by
  induction bs generalizing t with
  | nil => rfl
  | cons ob bs ih => rw [bytesEvents_cons, Tracked.after_append, ih, Tracked.after_byteEvents]

/-- A selected receiver takes exactly the bits of the bytes sent. -/
theorem sampledFrom_bytesEvents {t : Tracked} (h : t.cs = some true) (bs : List (Order × Byte)) :
    sampledFrom t (bytesEvents bs) = (bytesBits bs).map some := by
  induction bs generalizing t with
  | nil => rfl
  | cons ob bs ih =>
    rw [bytesEvents_cons, sampledFrom_append, sampledFrom_byteEvents t _ _ h,
      ih (by rw [Tracked.after_byteEvents]; exact h)]
    simp [bytesBits]

/-- The bracket around a frame drives no clock, so the receiver takes the bits inside it alone. -/
theorem sampledFrom_framed (t : Tracked) (bs : List (Order × Byte)) :
    sampledFrom t (framed (bytesEvents bs)) = (bytesBits bs).map some := by
  rw [framed, sampledFrom_append, sampledFrom_append, sampledFrom_bytesEvents rfl]
  simp [sampledFrom, Tracked.sample]

/-- Settles O19: REFRESH puts its framed bytes on the trace, and the receiver takes their bits. -/
theorem refreshSampledBits : Obligations.RefreshSampledBits := by
  intro s hs
  refine ⟨_, (exec_refresh hs).trans (refreshFrame_eq Config.params s), ?_⟩
  rw [State.emit, sampled, sampledFrom_append, sampledFrom_framed, bytesBits, List.map_flatMap]
  congr
  funext ⟨o, b⟩
  rw [byteBits, List.map_map]
  cases o <;> rfl

end Sys2Proof.Machine
end

section
/-! SUPPORT. The transport requests: the events and levels of one byte, the laws of what a receiver samples
(40_transport.md R110 to R118), and the encoder's state machine run to its end (R117). -/

namespace Sys2Proof.Machine

open Sys2Proof Sys2Proof.Claims

/-! ## One request (40_transport.md R110 to R112) -/

theorem byteEvents_eq (o : Order) (b : Byte) :
    byteEvents o b = ((List.range 8).flatMap fun n => bitEvents (wireBit o b n)) ++ [.set .clk false] := by
  rw [byteEvents, byteBits, List.flatMap_map]

theorem length_byteEvents (o : Order) (b : Byte) : (byteEvents o b).length = 25 := rfl

theorem exec_transport_eq (o : Order) (b : Byte) (s : State) :
    exec (transportInstr o b) s =
      .next { s with
        lines := { s.lines with clk := false, data := wireBit o b 7 }
        trace := s.trace ++ byteEvents o b } := by
  rw [exec_transport, State.emit, Levels.after_byteEvents]

/-- Settles O24: the events and the last level on `DATA` are those of the order and the byte. -/
theorem transportReadsOnlyItsRequest : Obligations.TransportReadsOnlyItsRequest :=
  fun o b => ⟨byteEvents o b, wireBit o b 7, exec_transport_eq o b⟩

/-- Settles O21: the picture of a byte sent MSB-first. -/
theorem sendmsbRequest : Obligations.SendmsbRequest := fun b s =>
  ⟨byteEvents .msb b, length_byteEvents .msb b, byteEvents_eq .msb b, exec_transport_eq .msb b s⟩

/-- Settles O22: the picture of a byte sent LSB-first. -/
theorem sendlsbRequest : Obligations.SendlsbRequest := fun b s =>
  ⟨byteEvents .lsb b, length_byteEvents .lsb b, byteEvents_eq .lsb b, exec_transport_eq .lsb b s⟩

/-! ## The laws of the transport (40_transport.md R118) -/

theorem wireBit_rev8 (b : Byte) {k : Nat} (hk : k < 8) :
    wireBit .msb (rev8 b) k = wireBit .lsb b k := by
  have hflip : 8 - 1 - (7 - k) = k := by omega
  have hlt : 7 - k < 8 := by omega
  rw [wireBit, rev8, BitVec.getLsbD_reverse, BitVec.getMsbD, hflip, decide_eq_true hlt, Bool.true_and,
    wireBit]

theorem byteEvents_rev8 (b : Byte) : byteEvents .msb (rev8 b) = byteEvents .lsb b := by
  have hbits : byteBits .msb (rev8 b) = byteBits .lsb b :=
    List.map_congr_left fun _ hk => wireBit_rev8 b (List.mem_range.mp hk)
  rw [byteEvents, hbits, byteEvents]

/-- A receiver that is not selected takes no bit of a byte. -/
theorem sampledFrom_byteEvents_deselected (t : Tracked) (o : Order) (b : Byte) (h : t.cs = some false) :
    sampledFrom t (byteEvents o b) = [] := by
  simp [byteEvents, byteBits, List.range, List.range.loop, bitEvents, sampledFrom, Tracked.sample,
    Tracked.apply, h]

/-- A request adds its eight bits to the sampled stream of a selected receiver, and none to that of one
not selected. -/
theorem sampled_transport {o : Order} {b : Byte} {s t : State}
    (h : exec (transportInstr o b) s = .next t) :
    ((Tracked.start.after s.trace).cs = some true →
      sampled t.trace = sampled s.trace ++ (List.range 8).map fun k => some (wireBit o b k)) ∧
    ((Tracked.start.after s.trace).cs = some false → sampled t.trace = sampled s.trace) := by
  rw [exec_transport] at h
  cases h
  have hsplit : sampled (s.emit (byteEvents o b)).trace =
      sampled s.trace ++ sampledFrom (Tracked.start.after s.trace) (byteEvents o b) :=
    sampledFrom_append _ _ _
  refine ⟨fun hcs => ?_, fun hcs => ?_⟩
  · rw [hsplit, sampledFrom_byteEvents _ o b hcs, byteBits, List.map_map]
    rfl
  · rw [hsplit, sampledFrom_byteEvents_deselected _ o b hcs, List.append_nil]

/-- Where bits are sent, `DATA` is driven with the clock low. -/
theorem clk_low_before_data {bits : List Bool} {tr : Tracked} {pre post : List Event} {v : Bool}
    (h : bits.flatMap bitEvents ++ [.set .clk false] = pre ++ .set .data v :: post) :
    (tr.after pre).clk = some false := by
  induction bits generalizing tr pre with
  | nil => rcases pre with _ | ⟨e, pre⟩ <;> simp at h
  | cons w bits ih =>
    rw [List.flatMap_cons, List.append_assoc] at h
    rcases pre with _ | ⟨e₁, _ | ⟨e₂, _ | ⟨e₃, pre⟩⟩⟩
    · simp [bitEvents] at h
    · obtain ⟨rfl, -⟩ := List.cons.inj h
      rfl
    · simp [bitEvents] at h
    · simp only [bitEvents, List.cons_append, List.nil_append, List.cons.injEq] at h
      obtain ⟨-, -, -, hrest⟩ := h
      rw [Tracked.after, Tracked.after, Tracked.after]
      exact ih hrest

/-- Settles O23: reversal through the wire's bits, sampling through the events of a byte. -/
theorem transportLaws : Obligations.TransportLaws := by
  intro b
  have reversal : ∀ s, exec (.sendlsb b) s = exec (.sendmsb (rev8 b)) s := by
    intro s
    have hmsb := exec_transport .msb (rev8 b) s
    rw [byteEvents_rev8] at hmsb
    exact (exec_transport .lsb b s).trans hmsb.symm
  refine ⟨reversal, fun s t h => sampled_transport (o := .msb) h,
    fun s t h => sampled_transport (o := .lsb) h, fun o tr pre post v h => clk_low_before_data h,
    fun hpal s => ?_⟩
  rw [reversal, ← hpal]

/-! ## Runs of the reference machine -/

/-- `RunsWhile p P k s t`: `k` steps of the reference machine lead from `s` to `t`, and `P` holds of every
state before the last. -/
inductive RunsWhile (p : Params) (P : State → Prop) : Nat → State → State → Prop
  | refl (s : State) : RunsWhile p P 0 s s
  | head {k : Nat} {s u t : State} (hP : P s) (hstep : fsmStep p s = .next u)
      (hrun : RunsWhile p P k u t) : RunsWhile p P (k + 1) s t

section RunsWhile

variable {p : Params} {P : State → Prop} {k : Nat} {s t : State}

theorem RunsWhile.fsmRun_eq (h : RunsWhile p P k s t) : fsmRun p k s = .next t := by
  induction h with
  | refl s => rfl
  | head _ hstep _ ih => rw [fsmRun, hstep, andThen_next, ih]

theorem RunsWhile.before (h : RunsWhile p P k s t) {j : Nat} (hj : j < k) :
    ∃ u, fsmRun p j s = .next u ∧ P u := by
  induction h generalizing j with
  | refl s => omega
  | head hP hstep _ ih =>
    cases j with
    | zero => exact ⟨_, rfl, hP⟩
    | succ j =>
      obtain ⟨u, hu, hPu⟩ := ih (Nat.lt_of_succ_lt_succ hj)
      exact ⟨u, by rw [fsmRun, hstep, andThen_next, hu], hPu⟩

end RunsWhile

/-! ## The encoder's machine from its first bit to `T_IDLE` (40_transport.md R117) -/

/-- A transport request is pending or running. -/
def State.transporting (s : State) : Prop := s.tst ≠ none ∨ s.tq ≠ none

/-- A row of the encoder's machine is a step of a run. -/
theorem RunsWhile.encoder {p : Params} {k : Nat} {s t : State} {r : Transport} (hr : s.tst = some r)
    (hrun : RunsWhile p State.transporting k (transportStep r s) t) :
    RunsWhile p State.transporting (k + 1) s t :=
  .head (.inl (by simp [hr])) (fsmStep_running hr) hrun

/-- With `n` bits sent and `count` to go, the machine sends them, lowers the clock and is in `T_IDLE`. -/
theorem encoder_sends_bits (p : Params) (o : Order) {count n : Nat} (hn : n + count = 8) (sr : Byte)
    {s : State} (hs : s.tst = some ⟨if n < 8 then .low else .final, o, sr, n⟩) :
    RunsWhile p State.transporting (3 * count + 1) s
      (setLine .clk false (txBits o count sr { s with tst := none })) := by
  induction count generalizing n sr s with
  | zero =>
    obtain rfl : n = 8 := hn
    exact .encoder hs (.refl _)
  | succ count ih =>
    rw [if_pos (by omega)] at hs
    exact .encoder hs (.encoder rfl (.encoder rfl (ih (n := n + 1) (by omega) (shiftOut o sr) rfl)))

/-- Settles O42: the request is loaded, and its eight bits are sent. -/
theorem encoderMachineRefinesRequest : Obligations.EncoderMachineRefinesRequest := by
  intro p s q hidle hq
  have hexec : exec (decodeTq q) { s with tq := none } =
      .next (tx q.order q.byte { s with tq := none, tst := none }) := by
    rw [decodeTq, exec_transport, tx_eq_emit, ← hidle]
  have hrun : RunsWhile p State.transporting 26 s
      (tx q.order q.byte { s with tq := none, tst := none }) :=
    .head (.inr (by simp [hq])) (fsmStep_request hidle hq)
      (encoder_sends_bits p q.order (n := 0) (count := 8) rfl q.byte rfl)
  refine ⟨26, _, hrun.fsmRun_eq, hexec, ?_, ?_, fun j hj => hrun.before hj⟩
  · rw [tx_eq]
  · rw [tx_eq]

/-! ## What a step of the reference machine may change (42_refresh_sequencer.md R167) -/

/-- From `s` to `t` only the transient state and the record of at most one event differ. -/
def MachineMove (s t : State) : Prop :=
  ∃ (q : Seq) (r : Option Transport) (x : Option TqWord) (e : Option Event),
    t = State.emit { s with seq := q, tst := r, tq := x } e.toList

section MachineMove

variable {p : Params} {s t : State}

theorem MachineMove.emits {q : Seq} {r : Option Transport} {x : Option TqWord} (e : Event) :
    MachineMove s (State.emit { s with seq := q, tst := r, tq := x } [e]) :=
  ⟨q, r, x, some e, rfl⟩

theorem MachineMove.silent {q : Seq} {r : Option Transport} {x : Option TqWord} :
    MachineMove s { s with seq := q, tst := r, tq := x } :=
  ⟨q, r, x, none, (emit_nil _).symm⟩

theorem transportStep_move (r : Transport) (s : State) : MachineMove s (transportStep r s) := by
  obtain ⟨phase, o, sr, n⟩ := r
  cases phase with
  | low => exact .emits (.set .clk false)
  | data => exact .emits (.set .data (outBit o sr))
  | high => exact .emits (.set .clk true)
  | final => exact .emits (.set .clk false)

theorem frameStep_move {f : Frame} (h : frameStep p f s = .next t) : MachineMove s t := by
  obtain ⟨phase, kind, i, cnt, line⟩ := f
  cases phase with
  | csUp => cases h; exact .emits (.set .cs true)
  | settle => cases h; exact .emits (.wait .settle)
  | hold => cases h; exact .emits (.wait .hold)
  | csDown => cases h; exact .emits (.set .cs false)
  | desel => cases h; exact .emits (.wait .deselect)
  | cmd | clrDummy | addr | data | term | trail =>
    obtain ⟨o, b, f', rfl, -⟩ := frameStep_issues (by simp) h
    exact .silent

theorem seqStep_move (h : seqStep p s = .next t) : MachineMove s t := by
  unfold seqStep at h
  cases hseq : s.seq with
  | idle => rw [hseq] at h; cases h; exact .silent
  | frame f => rw [hseq] at h; exact frameStep_move h
  | invUp => rw [hseq] at h; cases h; exact .emits (.set .inv true)
  | invHold => rw [hseq] at h; cases h; exact .emits (.wait .inv)
  | invDown => rw [hseq] at h; cases h; exact .emits (.set .inv false)

theorem fsmStep_move (h : fsmStep p s = .next t) : MachineMove s t := by
  obtain ⟨r, -, rfl⟩ | ⟨q, -, -, rfl⟩ | ⟨-, h⟩ := fsmStep_cases h
  · exact transportStep_move r s
  · exact .silent
  · exact seqStep_move h

end MachineMove

/-- Settles O44: a step is a move of the machine, which touches only transient state and the record. -/
theorem machineStepEmitsAtMostOneEvent : Obligations.MachineStepEmitsAtMostOneEvent := by
  intro p s t h
  obtain ⟨q, r, x, e, rfl⟩ := fsmStep_move h
  refine ⟨?_, rfl, rfl, rfl, rfl, rfl⟩
  cases e with
  | none => exact .inl (List.append_nil _)
  | some e => exact .inr ⟨e, rfl⟩

end Sys2Proof.Machine
end

section
/-! SUPPORT. The address generator: the transform in closed form, what a pixel write does in the words of
41_pixel_address.md R132, R136 and R139, and a pixel's way to the wire. -/

namespace Sys2Proof.Machine

open Sys2Proof Sys2Proof.Claims

/-! ## The transform (41_pixel_address.md R133, R134, R139) -/

theorem rotate_eq_rotated (p : Params) (r : Rot) (x y : Int) : rotate p r x y = rotated p r x y := by
  cases r <;> rfl

theorem mirror_mirror (p : Params) (xy : Int × Int) : mirror p (mirror p xy) = xy := by
  rw [mirror, mirror, sub_sub_cancel]

/-- Rotations 1 and 2 count columns from the right, and the mirror counts them back. -/
theorem bufferCoords_eq (p : Params) (r : Rot) (x y : Int) :
    bufferCoords p r x y = (column p r x y, row p r x y) := by
  cases r with
  | r0 => rfl
  | r1 => exact mirror_mirror p (y, x)
  | r2 => exact mirror_mirror p (x, _)
  | r3 => rfl

/-- A coordinate of the buffer gives the logical one back: it is that one or its distance from an edge. -/
theorem bufferCoords_injective {p : Params} {r : Rot} {x y x' y' : Int}
    (h : bufferCoords p r x y = bufferCoords p r x' y') : x = x' ∧ y = y' := by
  rw [bufferCoords_eq, bufferCoords_eq, Prod.mk.injEq] at h
  obtain ⟨hcol, hrow⟩ := h
  cases r <;> simp only [column, row] at hcol hrow <;> omega

theorem inBounds_iff {p : Params} {x y : Int} : inBounds p x y = true ↔ Inside p x y := by
  simp [inBounds, Inside, and_assoc]

/-- A quarter turn puts `Y` along the columns and `X` along the rows; the other two keep them. -/
theorem inBuffer_iff_fits {p : Params} {r : Rot} {x y : Int} (h : Inside p x y) :
    inBuffer p (column p r x y) (row p r x y) = true ↔ Fits p r x y := by
  obtain ⟨hx, hxW, hy, hyH⟩ := h
  rw [inBuffer_iff]
  cases r <;> simp only [column, row, Fits, reduceCtorEq, false_or, true_or, or_true, iff_true] <;> omega

theorem not_fits_iff {p : Params} {r : Rot} {x y : Int} :
    ¬ Fits p r x y ↔ (r = .r1 ∨ r = .r3) ∧ ((p.W : Int) ≤ y ∨ (p.H : Int) ≤ x) := by
  cases r <;> simp [Fits] <;> omega

/-- The logical coordinates of a buffer place of a square panel. -/
def logicalCoords (p : Params) : Rot → Int → Int → Int × Int
  | .r0, xb, yb => (p.W - 1 - xb, yb)
  | .r1, xb, yb => (yb, xb)
  | .r2, xb, yb => (xb, p.H - 1 - yb)
  | .r3, xb, yb => (p.H - 1 - yb, p.W - 1 - xb)

theorem bufferCoords_logicalCoords (p : Params) (r : Rot) (xb yb : Int) :
    bufferCoords p r (logicalCoords p r xb yb).1 (logicalCoords p r xb yb).2 = (xb, yb) := by
  rw [bufferCoords_eq]
  cases r <;> simp [column, row, logicalCoords]

theorem logicalCoords_inside {p : Params} {xb yb : Int} (hsquare : p.W = p.H) (h : Inside p xb yb)
    (r : Rot) : Inside p (logicalCoords p r xb yb).1 (logicalCoords p r xb yb).2 := by
  obtain ⟨hx, hxW, hy, hyH⟩ := h
  unfold Inside
  cases r <;> simp only [logicalCoords] <;> omega

/-- Settles O34: closed forms and acceptance by the four rotations; one-to-one on bits by the layout. -/
theorem transformClosedForms : Obligations.TransformClosedForms := by
  refine ⟨fun p r x y => ⟨rotate_eq_rotated p r x y, bufferCoords_eq p r x y⟩,
    fun p r x y h => inBuffer_iff_fits h, fun p r x y x' y' h => bufferCoords_injective h,
    fun p r x y x' y' hin hfit hin' hfit' hbyte hbit => ?_,
    fun p r xb yb hsquare h => ⟨_, _, logicalCoords_inside hsquare h r,
      bufferCoords_logicalCoords p r xb yb⟩⟩
  obtain ⟨hcol, hrow⟩ := place_unique ((inBuffer_iff_fits hin').mpr hfit')
    ((inBuffer_iff_fits hin).mpr hfit) hbyte hbit
  apply bufferCoords_injective (p := p) (r := r)
  rw [bufferCoords_eq, bufferCoords_eq, hcol, hrow]

/-- Settles O35: `Rotate` computed twice; the quarter turns miss by `H - W` and `W - H`. -/
theorem rotationLaws : Obligations.RotationLaws := by
  intro p x y
  have h31 : rotate p .r3 (rotate p .r1 x y).1 (rotate p .r1 x y).2 = (x, y + p.H - p.W) := by
    simp only [rotate, Prod.mk.injEq, true_and]; ring
  have h13 : rotate p .r1 (rotate p .r3 x y).1 (rotate p .r3 x y).2 = (x + p.W - p.H, y) := by
    simp only [rotate, Prod.mk.injEq, and_true]; ring
  refine ⟨rfl, ?_, h31, h13, ?_, ?_⟩
  · rw [rotate, rotate, sub_sub_cancel, sub_sub_cancel]
  · rw [h31, Prod.mk.injEq]; omega
  · rw [h13, Prod.mk.injEq]; omega

/-! ## SETROT and GETPIX (41_pixel_address.md R130, R137) -/

/-- Settles O9: past the guard the one write of `ROT`. -/
theorem setrotCommand : Obligations.SetrotCommand := fun r _ =>
  ⟨fun hs => exec_setrot hs r, exec_of_not_initd rfl⟩

/-- Settles O15: past the guard the fault. -/
theorem getpixIsUnsupported : Obligations.GetpixIsUnsupported := fun x y _ =>
  ⟨fun hs => exec_getpix hs x y, exec_of_not_initd rfl⟩

/-! ## The pixel written (41_pixel_address.md R135) -/

/-- The buffer with the bit of one place set to a colour. -/
def Memory.putPixel (p : Params) (m : Memory) (xb yb : Int) (c : Bool) : Memory :=
  Memory.put p m (byteIndex p xb yb)
    (writeBit (Memory.get p m (byteIndex p xb yb)) (bitIndex xb) c)

theorem Memory.get_putPixel_other (p : Params) (m : Memory) (xb yb : Int) (c : Bool) {a : Nat}
    (h : a ≠ byteIndex p xb yb) : Memory.get p (Memory.putPixel p m xb yb c) a = Memory.get p m a :=
  Memory.get_put_other p m h _

theorem Memory.getLsbD_get_putPixel {p : Params} {m : Memory} (hm : Memory.wf p m) (xb yb : Int)
    (c : Bool) (a : Nat) {j : Nat} (hj : j < 8) :
    (Memory.get p (Memory.putPixel p m xb yb c) a).getLsbD j =
      if a = byteIndex p xb yb ∧ j = bitIndex xb then c else (Memory.get p m a).getLsbD j := by
  by_cases ha : a = byteIndex p xb yb
  · subst ha
    rw [Memory.putPixel, Memory.get_put_same hm, writeBit_getLsbD _ _ _ _ hj]
    simp
  · rw [Memory.get_putPixel_other p m xb yb c ha, if_neg (fun h => ha h.1)]

/-! ## The three ends of a pixel write (41_pixel_address.md R131) -/

theorem pixelWrite_of_not_inside {p : Params} {x y : Int} (h : ¬ Inside p x y) (c : Bool)
    (s : State) : pixelWrite p x y c s = .next s :=
  pixelWrite_outOfBounds (Bool.eq_false_iff.mpr (mt inBounds_iff.mp h)) c s

section Inside

variable {p : Params} {x y : Int} {s : State} (hin : Inside p x y)
include hin

theorem inBuffer_bufferCoords_iff_fits {r : Rot} :
    inBuffer p (bufferCoords p r x y).1 (bufferCoords p r x y).2 = true ↔ Fits p r x y := by
  rw [bufferCoords_eq]
  exact inBuffer_iff_fits hin

theorem pixelWrite_of_not_fits (hfit : ¬ Fits p s.rot x y) (c : Bool) :
    pixelWrite p x y c s = .next { s with fault := faultSet s.fault .xformRange } :=
  pixelWrite_xformRange (inBounds_iff.mpr hin)
    (Bool.eq_false_iff.mpr (mt (inBuffer_bufferCoords_iff_fits hin).mp hfit)) c

theorem pixelWrite_of_fits (hfit : Fits p s.rot x y) (c : Bool) :
    pixelWrite p x y c s =
      .next { s with
        buf := Memory.putPixel p s.buf (column p s.rot x y) (row p s.rot x y) c } := by
  rw [pixelWrite_inBuffer (inBounds_iff.mpr hin) ((inBuffer_bufferCoords_iff_fits hin).mpr hfit),
    bufferCoords_eq]
  exact bitWrite_inBuffer ((inBuffer_iff_fits hin).mpr hfit) c s

end Inside

theorem colorBit_eq (color : BitVec 16) : colorBit color = decide (color ≠ 0#16) := by
  rw [colorBit, bne, decide_not, beq_eq_decide]

/-- An accepted SETPIX. -/
theorem exec_setpix_of_fits {x y : Int} {s : State} (hs : s.initd = true)
    (hin : Inside Config.params x y) (hfit : Fits Config.params s.rot x y) (color : BitVec 16) :
    exec (.setpix x y color) s =
      .next { s with
        buf := Memory.putPixel Config.params s.buf (column Config.params s.rot x y)
          (row Config.params s.rot x y) (decide (color ≠ 0#16)) } := by
  rw [exec_setpix hs, pixelWrite_of_fits hin hfit, colorBit_eq]

/-- Settles O10: past the guard the bounds check comes first. -/
theorem setpixOutOfBoundsIsSilent : Obligations.SetpixOutOfBoundsIsSilent := by
  intro x y color s hs h
  rw [exec_setpix hs, pixelWrite_of_not_inside h]

/-- Settles O12: the closed condition is that of coordinates that do not fit. -/
theorem setpixXformRange : Obligations.SetpixXformRange := by
  refine ⟨fun p x y c s hs hin => ?_, fun x y color s => ?_⟩
  · rw [← not_fits_iff, not_not, setpixOn, whenInit_of_initd hs]
    exact ⟨fun hfit => pixelWrite_of_not_fits hin hfit c,
      fun hfit => ⟨_, pixelWrite_of_fits hin hfit c⟩⟩
  · rw [exec, execSetpix, colorBit_eq]

/-- The index of an accepted place as R135 writes it: it is not negative. -/
theorem natCast_byteIndex {p : Params} {xb yb : Int} (h : inBuffer p xb yb = true) :
    (byteIndex p xb yb : Int) = (yb * p.W + xb) / 8 := by
  obtain ⟨hx, -, hy, -⟩ := inBuffer_iff.mp h
  exact Int.toNat_of_nonneg (by positivity)

/-- Settles O11: the write of the one bit, in the closed forms of byte and bit. -/
theorem setpixWritesOneBit : Obligations.SetpixWritesOneBit := by
  intro x y color s hs hin hfit hm
  refine ⟨_, exec_setpix_of_fits hs hin hfit color, fun a j hj => ?_⟩
  rw [Memory.getLsbD_get_putPixel hm _ _ _ a hj, ← natCast_byteIndex ((inBuffer_iff_fits hin).mpr hfit),
    ← bitIndex_eq]
  simp only [Nat.cast_inj, byteAt]

/-- What a SETPIX can do: other fault bits, and another byte at the index computed. -/
theorem exec_setpix_frame (x y : Int) (color : BitVec 16) (s : State) :
    ∃ (f : BitVec 4) (m : Memory),
      exec (.setpix x y color) s = .next { s with fault := f, buf := m } ∧
      ∀ a, a ≠ byteIndex Config.params (column Config.params s.rot x y) (row Config.params s.rot x y) →
        Memory.get Config.params m a = byteAt s a := by
  rcases Bool.eq_false_or_eq_true s.initd with hs | hs
  · by_cases hin : Inside Config.params x y
    · by_cases hfit : Fits Config.params s.rot x y
      · exact ⟨_, _, exec_setpix_of_fits hs hin hfit color,
          fun a ha => Memory.get_putPixel_other _ _ _ _ _ ha⟩
      · exact ⟨_, _, (exec_setpix hs x y color).trans (pixelWrite_of_not_fits hin hfit _),
          fun _ _ => rfl⟩
    · exact ⟨_, _, (exec_setpix hs x y color).trans (pixelWrite_of_not_inside hin _ s),
        fun _ _ => rfl⟩
  · exact ⟨_, _, exec_of_not_initd rfl hs, fun _ _ => rfl⟩

/-- Settles O13: a SETPIX differs in `FAULT` and in one byte of `BUF` at most. -/
theorem setpixFrame : Obligations.SetpixFrame := by
  intro x y color s t h
  obtain ⟨f, m, hexec, hother⟩ := exec_setpix_frame x y color s
  cases hexec.symm.trans h
  refine ⟨?_, rfl, rfl, rfl, rfl, rfl, rfl, rfl, rfl⟩
  rw [bufferCoords_eq]
  rintro _ rfl b hb
  exact hother b hb

/-! ## From the buffer to the wire (20_memory.md R53, 30_encoding.md R93) -/

/-- A bit of a sequence of bytes is found by its byte and its place there. -/
theorem getElem?_bytesBits {bs : List (Order × Byte)} {k j : Nat} {o : Order} {b : Byte}
    (h : bs[k]? = some (o, b)) (hj : j < 8) : (bytesBits bs)[k * 8 + j]? = some (wireBit o b j) := by
  induction bs generalizing k with
  | nil => cases h
  | cons ob bs ih =>
    have hlen : (byteBits ob.1 ob.2).length = 8 := rfl
    rw [bytesBits, List.flatMap_cons, List.getElem?_append, hlen]
    cases k with
    | zero =>
      cases h
      simp [hj, byteBits]
    | succ k =>
      have hrest : (k + 1) * 8 + j - 8 = k * 8 + j := by omega
      rw [if_neg (by omega), hrest]
      exact ih h

/-- A place of the buffer in the bits of a refresh frame: its column in the line of its row. -/
theorem getElem?_bytesBits_frameBytes {p : Params} {xb yb : Int} (h : inBuffer p xb yb = true)
    (m : Memory) :
    (bytesBits (frameBytes p m))[8 + yb.toNat * (16 + p.W) + 8 + xb.toNat]? =
      some ((Memory.get p m (byteIndex p xb yb)).getLsbD (bitIndex xb)) := by
  obtain ⟨hx, hxW, hy, hyH⟩ := inBuffer_iff.mp h
  obtain ⟨x, rfl⟩ := Int.eq_ofNat_of_zero_le hx
  obtain ⟨y, rfl⟩ := Int.eq_ofNat_of_zero_le hy
  have hW := bytesPerLine_eq p
  have hbyte : byteIndex p x y = y * (p.W / 8) + x / 8 := by
    rw [hW]
    exact_mod_cast byteIndex_eq h
  have hbit : bitIndex x = x % 8 := by exact_mod_cast bitIndex_eq x
  have hplace : 8 + y * (16 + p.W) + 8 + x =
      (1 + y * (2 + p.W / 8) + 1 + x / 8) * 8 + x % 8 := by
    have hline : y * (16 + p.W) = y * (2 + p.W / 8) * 8 := by
      rw [hW, Laws.Config.W_eq]; ring
    omega
  obtain ⟨-, -, hlines, -⟩ := refreshFrameByPosition p m
  obtain ⟨-, hdata, -⟩ := hlines y (by omega)
  rw [Int.toNat_natCast, Int.toNat_natCast, hplace, hbyte, hbit]
  exact getElem?_bytesBits (hdata (x / 8) (by have := Laws.Config.W_eq p; omega)) (Nat.mod_lt _ (by decide))

/-- The receiver takes the bits of the frame of a REFRESH. -/
theorem sampled_refresh {s : State} (hs : s.initd = true) :
    ∃ t : State, exec .refresh s = .next t ∧
      sampled t.trace =
        sampled s.trace ++ (bytesBits (frameBytes Config.params s.buf)).map some := by
  refine ⟨_, (exec_refresh hs).trans (refreshFrame_eq Config.params s), ?_⟩
  rw [State.emit, sampled, sampledFrom_append, sampledFrom_framed, sampled]

/-- Settles O41: the bit written is the bit of its place in the frame. -/
theorem pixelReachesTheWire : Obligations.PixelReachesTheWire := by
  intro x y color s hs hin hfit hm
  have hq := (inBuffer_iff_fits hin).mpr hfit
  obtain ⟨u, hrefresh, hsampled⟩ := sampled_refresh (s := { s with
    buf := Memory.putPixel Config.params s.buf (column Config.params s.rot x y)
      (row Config.params s.rot x y) (decide (color ≠ 0#16)) }) hs
  refine ⟨_, u, _, exec_setpix_of_fits hs hin hfit color, hrefresh, hsampled, ?_⟩
  rw [List.getElem?_map, getElem?_bytesBits_frameBytes hq,
    Memory.getLsbD_get_putPixel hm _ _ _ _ (byteIndex_lt _ hq).2, if_pos ⟨rfl, rfl⟩, Option.map_some]

end Sys2Proof.Machine
end

section
/-! SUPPORT. What each operation puts on the wire, said once: the events of an operation, the frame bracket on the
latches and in counts, and the commands of 42_refresh_sequencer.md R160 to R165 and R169 to R171 from them. -/

namespace Sys2Proof.Machine

open Sys2Proof Sys2Proof.Claims

/-! ## INIT and INVPULSE (42_refresh_sequencer.md R160, R164) -/

/-- Settles O8: the meaning of INIT, whatever the state. -/
theorem initCommand : Obligations.InitCommand := exec_init

/-- A pulse on `INV` drives no clock, so no bit is taken. -/
theorem sampledFrom_pulse (tr : Tracked) :
    sampledFrom tr [.set .inv true, .wait .inv, .set .inv false] = [] := rfl

/-- Settles O20: past the guard the three events, none of which a receiver samples. -/
theorem invpulseCommand : Obligations.InvpulseCommand := by
  intro s
  refine ⟨exec_invpulse, fun t h => ?_, exec_of_not_initd rfl⟩
  cases hs : s.initd with
  | true =>
    rw [exec_invpulse hs] at h
    cases h
    rw [sampled, sampledFrom_append, sampledFrom_pulse, List.append_nil, sampled]
  | false =>
    rw [exec_of_not_initd rfl hs] at h
    cases h
    rfl

/-! ## The frame bracket on the latches (42_refresh_sequencer.md R161, R171) -/

/-- Bytes leave the latches of `CS` and `INV`. -/
theorem Levels.after_bytesEvents (L : Levels) (bs : List (Order × Byte)) :
    (L.after (bytesEvents bs)).cs = L.cs ∧ (L.after (bytesEvents bs)).inv = L.inv := by
  induction bs generalizing L with
  | nil => exact ⟨rfl, rfl⟩
  | cons ob bs ih =>
    rw [bytesEvents_cons, Levels.after_append, Levels.after_byteEvents]
    exact ih _

/-- A frame whose last byte is the dummy byte leaves `CLK`, `DATA` and `CS` low and `INV` as it was. -/
theorem Levels.after_framed (L : Levels) (bs : List (Order × Byte)) :
    L.after (framed (bytesEvents (bs ++ [(.msb, 0#8)]))) =
      { L with clk := false, data := false, cs := false } := by
  obtain ⟨-, hinv⟩ := Levels.after_bytesEvents { L with cs := true } bs
  rw [framed, Levels.after_append, Levels.after_append, bytesEvents_append, Levels.after_append,
    bytesEvents_cons, bytesEvents_nil, List.append_nil, Levels.after_byteEvents]
  exact congrArg (Levels.mk false false false) hinv

theorem Levels.after_clearFrame (p : Params) (L : Levels) :
    L.after (framed (bytesEvents (clearBytes p))) =
      { L with clk := false, data := false, cs := false } :=
  Levels.after_framed L [(.msb, p.cmdClear)]

theorem Levels.after_refreshFrame (p : Params) (m : Memory) (L : Levels) :
    L.after (framed (bytesEvents (frameBytes p m))) =
      { L with clk := false, data := false, cs := false } :=
  Levels.after_framed L ((.msb, p.cmdWrite) :: (List.range p.H).flatMap (lineBytes p m))

/-! ## CLEAR and REFRESH (42_refresh_sequencer.md R162, R163) -/

theorem exec_clear_eq_emit {s : State} (hs : s.initd = true) :
    exec .clear s =
      .next (State.emit { s with buf := Memory.zero Config.params s.buf }
        (framed (bytesEvents (clearBytes Config.params)))) := by
  rw [exec_clear hs, clearFrame_eq_emit, clearBytes, bytesEvents_cons, bytesEvents_cons,
    bytesEvents_nil, List.append_nil]

theorem exec_refresh_eq_emit {s : State} (hs : s.initd = true) :
    exec .refresh s = .next (s.emit (framed (bytesEvents (frameBytes Config.params s.buf)))) :=
  (exec_refresh hs).trans (refreshFrame_eq Config.params s)

theorem framed_clearBytes (p : Params) :
    framed (bytesEvents (clearBytes p)) =
      [.set .cs true, .wait .settle] ++ byteEvents .msb p.cmdClear ++ byteEvents .msb 0x00#8 ++
        [.wait .hold, .set .cs false, .wait .deselect] := by
  simp [framed, clearBytes]

/-- The bits of a clear frame: the command byte and the eight zeros of the dummy byte. -/
theorem bytesBits_clearBytes (p : Params) :
    bytesBits (clearBytes p) = byteBits .msb p.cmdClear ++ List.replicate 8 false := by
  have hdummy : byteBits .msb 0#8 = List.replicate 8 false := by decide
  simp [bytesBits, clearBytes, hdummy]

/-- Settles O16: the buffer zeroed, and the clear frame emitted. -/
theorem clearCommand : Obligations.ClearCommand := by
  intro s
  refine ⟨fun hs hm => ?_, exec_of_not_initd rfl⟩
  refine ⟨Memory.zero Config.params s.buf, fun a ha => ?_, fun a ha => ?_,
    framed (bytesEvents (clearBytes Config.params)), rfl, framed_clearBytes _, fun tr => ?_, ?_⟩
  · rw [Memory.get_zero _ hm, if_pos ha]
  · rw [Memory.get_zero _ hm, if_neg (Nat.not_lt.mpr ha), byteAt]
  · rw [sampledFrom_framed, bytesBits_clearBytes]
  · rw [exec_clear_eq_emit hs, State.emit, Levels.after_clearFrame]

/-- Settles O17: the loop emits the framed bytes of the picture. -/
theorem refreshCommand : Obligations.RefreshCommand := by
  intro s
  refine ⟨fun hs => ?_, exec_of_not_initd rfl⟩
  rw [exec_refresh_eq_emit hs, State.emit, Levels.after_refreshFrame, framed, List.append_assoc,
    List.append_assoc, List.append_assoc]

/-! ## The events of an operation -/

/-- The events of an operation that its guard lets pass. -/
def acceptedEvents (p : Params) (m : Memory) : Instr → List Event
  | .init _ =>
    [.cfg .clk, .set .clk false, .cfg .data, .set .data false, .cfg .cs, .set .cs false, .cfg .inv,
      .set .inv false]
  | .clear => framed (bytesEvents (clearBytes p))
  | .refresh => framed (bytesEvents (frameBytes p m))
  | .invpulse => [.set .inv true, .wait .inv, .set .inv false]
  | .sendmsb b => byteEvents .msb b
  | .sendlsb b => byteEvents .lsb b
  | .setrot _ | .setpix _ _ _ | .getpix _ _ => []

/-- From `s` to `t` the events go on the latches and the trace; where a fault bit is set there are none. -/
structure AddsEvents (s t : State) (es : List Event) : Prop where
  lines : t.lines = s.lines.after es
  trace : t.trace = s.trace ++ es
  fault : t.fault ≠ s.fault → es = []

theorem AddsEvents.none {s t : State} (hlines : t.lines = s.lines) (htrace : t.trace = s.trace) :
    AddsEvents s t [] :=
  ⟨hlines, htrace.trans (List.append_nil _).symm, fun _ => rfl⟩

/-- What is emitted is added, from a state with the record of `s`. -/
theorem AddsEvents.of_emit {s u : State} (es : List Event) (hlines : u.lines = s.lines)
    (htrace : u.trace = s.trace) (hfault : u.fault = s.fault) : AddsEvents s (u.emit es) es :=
  ⟨by rw [← hlines]; rfl, by rw [← htrace]; rfl, fun h => absurd hfault h⟩

/-- Before INIT a command that checks `INITD` adds no event. -/
theorem exec_rejected_adds {i : Instr} {s t : State} (hi : guarded i = true) (hs : s.initd = false)
    (h : exec i s = .next t) : AddsEvents s t [] := by
  rw [exec_of_not_initd hi hs] at h
  cases h
  exact .none rfl rfl

/-- An operation that its guard lets pass adds its events. -/
theorem exec_accepted_adds {i : Instr} {s t : State} (live : guarded i = true → s.initd = true)
    (h : exec i s = .next t) : AddsEvents s t (acceptedEvents Config.params s.buf i) := by
  cases i with
  | init r =>
    rw [exec_init] at h
    cases h
    exact ⟨rfl, rfl, fun h => absurd rfl h⟩
  | setrot r =>
    rw [exec_setrot (live rfl)] at h
    cases h
    exact .none rfl rfl
  | setpix x y color =>
    rw [exec_setpix (live rfl)] at h
    obtain ⟨m, bits, hm⟩ := pixelWrite_effect x y (colorBit color) s
    rw [hm.eq_of_next h]
    exact .none rfl (List.append_nil _)
  | getpix x y =>
    rw [exec_getpix (live rfl)] at h
    cases h
    exact .none rfl rfl
  | clear =>
    rw [exec_clear_eq_emit (live rfl)] at h
    cases h
    exact .of_emit _ rfl rfl rfl
  | refresh =>
    rw [exec_refresh_eq_emit (live rfl)] at h
    cases h
    exact .of_emit _ rfl rfl rfl
  | invpulse =>
    rw [exec_invpulse (live rfl)] at h
    cases h
    exact ⟨rfl, rfl, fun h => absurd rfl h⟩
  | sendmsb b =>
    cases (exec_transport .msb b s).symm.trans h
    exact .of_emit _ rfl rfl rfl
  | sendlsb b =>
    cases (exec_transport .lsb b s).symm.trans h
    exact .of_emit _ rfl rfl rfl

/-- Either the guard turns an operation away or it adds its events. -/
theorem exec_adds {i : Instr} {s t : State} (h : exec i s = .next t) :
    (guarded i = true ∧ s.initd = false ∧ AddsEvents s t []) ∨
    ((guarded i = true → s.initd = true) ∧ AddsEvents s t (acceptedEvents Config.params s.buf i)) := by
  by_cases hbefore : guarded i = true ∧ s.initd = false
  · obtain ⟨hi, hs⟩ := hbefore
    exact .inl ⟨hi, hs, exec_rejected_adds hi hs h⟩
  · have live : guarded i = true → s.initd = true := by simpa using hbefore
    exact .inr ⟨live, exec_accepted_adds live h⟩

/-! ## One frame at a time (42_refresh_sequencer.md R165) -/

theorem insideFrame_of_mem_byteEvents {o : Order} {b : Byte} {e : Event} (h : e ∈ byteEvents o b) :
    insideFrame e = true := by
  simp only [byteEvents, bitEvents, List.mem_append, List.mem_flatMap, List.mem_cons,
    List.not_mem_nil, or_false] at h
  rcases h with ⟨_, -, rfl | rfl | rfl⟩ | rfl <;> rfl

theorem insideFrame_of_mem_bytesEvents {bs : List (Order × Byte)} {e : Event}
    (h : e ∈ bytesEvents bs) : insideFrame e = true := by
  obtain ⟨_, -, he⟩ := List.mem_flatMap.mp h
  exact insideFrame_of_mem_byteEvents he

/-- Inside the bracket of a frame stand its two waits and its bytes. -/
theorem framed_bytesEvents_eq (bs : List (Order × Byte)) :
    ∃ inner, framed (bytesEvents bs) = .set .cs true :: inner ++ [.set .cs false, .wait .deselect] ∧
      ∀ e ∈ inner, insideFrame e = true := by
  refine ⟨.wait .settle :: (bytesEvents bs ++ [.wait .hold]), by simp [framed], fun e he => ?_⟩
  simp only [List.mem_cons, List.mem_append, List.not_mem_nil, or_false] at he
  rcases he with rfl | he | rfl
  · rfl
  · exact insideFrame_of_mem_bytesEvents he
  · rfl

/-- No operation but CLEAR and REFRESH raises `CS`. -/
theorem not_raises_cs (p : Params) (m : Memory) {i : Instr} (hi : ¬ (i = .clear ∨ i = .refresh)) :
    .set .cs true ∉ acceptedEvents p m i := by
  cases i with
  | clear => exact absurd (.inl rfl) hi
  | refresh => exact absurd (.inr rfl) hi
  | sendmsb b | sendlsb b => exact fun h => by cases insideFrame_of_mem_byteEvents h
  | _ => simp [acceptedEvents]

/-- Settles O37: an operation turned away adds nothing, and an accepted one adds its own events. -/
theorem framesExcludeEachOther : Obligations.FramesExcludeEachOther := by
  intro i s t h
  obtain ⟨hi, hs, hadds⟩ | ⟨-, hadds⟩ := exec_adds h
  · exact ⟨[], hadds.trace, fun _ hinit => by simp [hs] at hinit, fun _ => List.not_mem_nil⟩
  · refine ⟨_, hadds.trace, fun hframe _ => ?_, not_raises_cs _ _⟩
    obtain rfl | rfl := hframe
    · exact framed_bytesEvents_eq _
    · exact framed_bytesEvents_eq _

/-! ## The latches when a command completes (42_refresh_sequencer.md R171) -/

/-- Settles O40: the events of each command driven on the latches; with a fault there are none. -/
theorem levelsAfterCommands : Obligations.LevelsAfterCommands := by
  intro i s t h
  obtain ⟨hi, hs, hadds⟩ | ⟨-, hadds⟩ := exec_adds h
  · refine ⟨?_, fun _ hinit => ?_, fun _ hinit => ?_, fun _ => hadds.lines⟩
    · rintro ⟨r, rfl⟩
      cases hi
    · simp [hs] at hinit
    · simp [hs] at hinit
  · refine ⟨?_, ?_, ?_, fun hf => ?_⟩
    · rintro ⟨r, rfl⟩
      exact hadds.lines
    · rintro (rfl | rfl) -
      · simp [hadds.lines, acceptedEvents, Levels.after_clearFrame]
      · simp [hadds.lines, acceptedEvents, Levels.after_refreshFrame]
    · rintro rfl -
      exact hadds.lines
    · rw [hadds.lines, hadds.fault hf]
      rfl

/-! ## Counts (42_refresh_sequencer.md R169) -/

/-- Every event is a `Set`, a `Wait` or a `Cfg`. -/
theorem length_eq_counts (es : List Event) :
    es.length = es.countP Event.isSet + es.countP Event.isWait + es.countP Event.isCfg := by
  induction es with
  | nil => rfl
  | cons e es ih =>
    rw [List.length_cons, List.countP_cons, List.countP_cons, List.countP_cons, ih]
    cases e <;> simp [Event.isSet, Event.isWait, Event.isCfg] <;> omega

/-- The rising clock edges, and the `Set`, `Wait` and `Cfg` events, of a list of events. -/
def tally (es : List Event) : Nat × Nat × Nat × Nat :=
  (es.countP fun e => e = .set .clk true, es.countP Event.isSet, es.countP Event.isWait,
    es.countP Event.isCfg)

theorem tally_append (es fs : List Event) : tally (es ++ fs) = tally es + tally fs := by
  simp [tally]

theorem tally_bytesEvents (bs : List (Order × Byte)) :
    tally (bytesEvents bs) = (8 * bs.length, 25 * bs.length, 0, 0) := by
  induction bs with
  | nil => rfl
  | cons ob bs ih =>
    have hbyte : tally (byteEvents ob.1 ob.2) = (8, 25, 0, 0) := rfl
    rw [bytesEvents_cons, tally_append, ih, hbyte, List.length_cons]
    simp only [Prod.mk_add_mk, Prod.mk.injEq, and_true, add_zero]
    omega

/-- The bracket adds two levels of `CS` and three waits. -/
theorem tally_framed (bs : List (Order × Byte)) :
    tally (framed (bytesEvents bs)) = (8 * bs.length, 25 * bs.length + 2, 3, 0) := by
  have hopen : tally [.set .cs true, .wait .settle] = (0, 1, 1, 0) := rfl
  have hclose : tally [.wait .hold, .set .cs false, .wait .deselect] = (0, 1, 2, 0) := rfl
  rw [framed, tally_append, tally_append, tally_bytesEvents, hopen, hclose]
  simp only [Prod.mk_add_mk, Prod.mk.injEq, and_true, add_zero]
  omega

/-- The row of 42_refresh_sequencer.md R169 is the tally of the command's events. -/
theorem tally_acceptedEvents (p : Params) (m : Memory) {i : Instr} (hi : hostCommand i = true) :
    tally (acceptedEvents p m i) = (8 * (countRow p i).1, (countRow p i).2) := by
  cases i with
  | init r | setrot r | setpix x y color | getpix x y | invpulse => rfl
  | clear => exact tally_framed (clearBytes p)
  | refresh => exact (tally_framed _).trans (by rw [length_frameBytes]; rfl)
  | sendmsb b | sendlsb b => cases hi

theorem length_bytesBits (bs : List (Order × Byte)) : (bytesBits bs).length = 8 * bs.length := by
  simp [bytesBits, byteBits, List.length_flatMap, Nat.mul_comm]

theorem length_sampledFrom_framed (tr : Tracked) (bs : List (Order × Byte)) :
    (sampledFrom tr (framed (bytesEvents bs))).length = 8 * bs.length := by
  rw [sampledFrom_framed, List.length_map, length_bytesBits]

/-- A receiver takes eight bits of each byte the command sends. -/
theorem length_sampledFrom_acceptedEvents (p : Params) (m : Memory) {i : Instr}
    (hi : hostCommand i = true) (tr : Tracked) :
    (sampledFrom tr (acceptedEvents p m i)).length = 8 * (countRow p i).1 := by
  cases i with
  | init r | setrot r | setpix x y color | getpix x y | invpulse => rfl
  | clear => exact length_sampledFrom_framed tr (clearBytes p)
  | refresh => exact (length_sampledFrom_framed tr _).trans (by rw [length_frameBytes]; rfl)
  | sendmsb b | sendlsb b => cases hi

theorem exec_completes (i : Instr) (s : State) : ∃ t, exec i s = .next t := by
  obtain ⟨u, es, bits, hu⟩ := exec_effect i s
  exact ⟨_, hu.answers s.fault s.lines s.trace⟩

/-- Settles O38: an accepted command by the tally of its events; a rejected one and an illegal word add
none. -/
theorem eventCounts : Obligations.EventCounts := by
  refine ⟨fun i s hi live => ?_, fun i s hi hs => ⟨_, exec_of_not_initd hi hs, rfl⟩,
    fun s w ws hs hw he => ?_⟩
  · obtain ⟨t, ht⟩ := exec_completes i s
    have htally := tally_acceptedEvents Config.params s.buf hi
    obtain ⟨hrising, hrest⟩ := Prod.mk.inj htally
    obtain ⟨hset, hrest⟩ := Prod.mk.inj hrest
    obtain ⟨hwait, hcfg⟩ := Prod.mk.inj hrest
    refine ⟨t, _, ht, (exec_accepted_adds live ht).trace, hrising,
      length_sampledFrom_acceptedEvents _ _ hi, hset, hwait, hcfg, ?_⟩
    rw [length_eq_counts, hset, hwait, hcfg]
  · obtain ⟨e, he⟩ := he
    exact ⟨_, step_illegal_word hs hw he, rfl⟩

end Sys2Proof.Machine
end

section
/-! SUPPORT. The sequencer's reference machine run from `S_IDLE` to `S_IDLE` (42_refresh_sequencer.md R166 to R168):
its rows chained frame by frame, `S_DATA` in step with the loop of REFRESH. -/

namespace Sys2Proof.Machine

open Sys2Proof Sys2Proof.Claims

/-! ## Runs that stay busy -/

section Chains

variable {p : Params} {P Q : State → Prop} {k l : Nat} {s t u : State}

theorem RunsWhile.trans (h : RunsWhile p P k s t) (h' : RunsWhile p P l t u) :
    ∃ n, RunsWhile p P n s u := by
  induction h with
  | refl s => exact ⟨l, h'⟩
  | head hP hstep _ ih =>
    obtain ⟨n, hn⟩ := ih h'
    exact ⟨n + 1, .head hP hstep hn⟩

theorem RunsWhile.mono (hPQ : ∀ s, P s → Q s) (h : RunsWhile p P k s t) : RunsWhile p Q k s t := by
  induction h with
  | refl s => exact .refl s
  | head hP hstep _ ih => exact .head (hPQ _ hP) hstep ih

end Chains

/-- The machine gets from `s` to `t`, and no state before `t` is ready for a command. -/
def Reaches (p : Params) (s t : State) : Prop := ∃ k, RunsWhile p (fun v => v.ready = false) k s t

/-- The state with another value of `SEQ`. -/
def State.inSeq (s : State) (q : Seq) : State := { s with seq := q }

section Reaches

variable {p : Params} {s t u : State}

theorem Reaches.refl (p : Params) (s : State) : Reaches p s s := ⟨0, .refl s⟩

theorem Reaches.trans (h : Reaches p s t) (h' : Reaches p t u) : Reaches p s u := by
  obtain ⟨k, hk⟩ := h
  obtain ⟨l, hl⟩ := h'
  exact hk.trans hl

theorem State.not_ready_of_seq (h : s.seq ≠ .idle) : s.ready = false :=
  Bool.eq_false_iff.mpr fun hr => h (State.ready_iff_idle.mp hr).1

theorem State.not_ready_of_transporting (h : s.transporting) : s.ready = false := by
  refine Bool.eq_false_iff.mpr fun hr => ?_
  obtain ⟨-, htst, htq⟩ := State.ready_iff_idle.mp hr
  exact h.elim (· htst) (· htq)

/-- A row of the sequencer, the transport in `T_IDLE`. -/
theorem reaches_row (s : State) (hs : s.quiet) {q : Seq} (hq : q ≠ .idle)
    (h : seqStep p (s.inSeq q) = .next t) : Reaches p (s.inSeq q) t :=
  ⟨1, .head (State.not_ready_of_seq hq) ((fsmStep_quiet (s := s.inSeq q) hs).trans h) (.refl t)⟩

/-- A pending request is put to the encoder and sent (40_transport.md R117). -/
theorem reaches_request (htst : s.tst = none) {o : Order} {b : Byte}
    (htq : s.tq = some (encodeTq o b)) :
    Reaches p s (State.emit { s with tst := none, tq := none } (byteEvents o b)) := by
  have hrun : RunsWhile p State.transporting 26 s (tx o b { s with tq := none, tst := none }) := by
    refine .head (.inr (by simp [htq])) (fsmStep_request htst htq)
      (encoder_sends_bits p o (n := 0) (count := 8) rfl b ?_)
    simp [Transport.load]
  rw [tx_eq_emit] at hrun
  exact ⟨26, hrun.mono fun _ => State.not_ready_of_transporting⟩

/-- A row that sends a byte: the next row acts when the byte is on the wire. -/
theorem reaches_byte (s : State) (hs : s.quiet) {f : Frame} {o : Order} {b : Byte} {q : Seq}
    (h : frameStep p f (s.inSeq (.frame f)) = .next (issue o b q (s.inSeq (.frame f)))) :
    Reaches p (s.inSeq (.frame f)) ((s.emit (byteEvents o b)).inSeq q) := by
  obtain ⟨buf, rot, initd, fault, lines, seq, tst, tq, trace, cmds⟩ := s
  obtain ⟨rfl, rfl⟩ := hs
  exact (reaches_row _ ⟨rfl, rfl⟩ (q := .frame f) (by simp) h).trans (reaches_request rfl rfl)

/-- `S_CS_UP` and `S_SETTLE`. -/
theorem reaches_selected (s : State) (hs : s.quiet) (kind : Kind) (i cnt line : Nat) :
    Reaches p (s.inSeq (.frame ⟨.csUp, kind, i, cnt, line⟩))
      ((select s).inSeq (.frame ⟨.cmd, kind, i, cnt, line⟩)) := by
  have hup : Reaches p (s.inSeq (.frame ⟨.csUp, kind, i, cnt, line⟩))
      ((setLine .cs true s).inSeq (.frame ⟨.settle, kind, i, cnt, line⟩)) :=
    reaches_row s hs (by simp) rfl
  exact hup.trans (reaches_row (setLine .cs true s) hs (by simp) rfl)

/-- `S_HOLD`, `S_CS_DOWN` and `S_DESEL`. -/
theorem reaches_deselected (s : State) (hs : s.quiet) (kind : Kind) (i cnt line : Nat) :
    Reaches p (s.inSeq (.frame ⟨.hold, kind, i, cnt, line⟩)) ((deselect s).inSeq .idle) := by
  have hhold : Reaches p (s.inSeq (.frame ⟨.hold, kind, i, cnt, line⟩))
      ((waitFor .hold s).inSeq (.frame ⟨.csDown, kind, i, cnt, line⟩)) :=
    reaches_row s hs (by simp) rfl
  have hdown : Reaches p ((waitFor .hold s).inSeq (.frame ⟨.csDown, kind, i, cnt, line⟩))
      ((setLine .cs false (waitFor .hold s)).inSeq (.frame ⟨.desel, kind, i, cnt, line⟩)) :=
    reaches_row (waitFor .hold s) hs (by simp) rfl
  exact (hhold.trans hdown).trans
    (reaches_row (setLine .cs false (waitFor .hold s)) hs (by simp) rfl)

/-- The dummy byte of `S_CLR_DUMMY` and of `S_TRAIL`, and the bracket closed. -/
theorem reaches_closed (s : State) (hs : s.quiet) {phase : FPhase}
    (hphase : phase = .clrDummy ∨ phase = .trail) (kind : Kind) (i cnt line : Nat) :
    Reaches p (s.inSeq (.frame ⟨phase, kind, i, cnt, line⟩))
      ((deselect (s.emit (byteEvents .msb 0#8))).inSeq .idle) := by
  have hdummy : Reaches p (s.inSeq (.frame ⟨phase, kind, i, cnt, line⟩))
      ((s.emit (byteEvents .msb 0#8)).inSeq (.frame ⟨.hold, kind, i, cnt, line⟩)) := by
    obtain rfl | rfl := hphase
    · exact reaches_byte s hs rfl
    · exact reaches_byte s hs rfl
  exact hdummy.trans (reaches_deselected (s.emit _) hs kind i cnt line)

/-! ## CLEAR and INVPULSE -/

/-- A clear frame, the buffer zeroed before it (42_refresh_sequencer.md R162). -/
theorem reaches_clear_sent (s : State) (hs : s.quiet) :
    Reaches p (s.inSeq (.frame (Frame.start .clear)))
      ((deselect (tx .msb 0#8 (tx .msb p.cmdClear (select s)))).inSeq .idle) := by
  have hcmd : Reaches p ((select s).inSeq (.frame ⟨.cmd, .clear, 0, 0, 0⟩))
      (((select s).emit (byteEvents .msb p.cmdClear)).inSeq (.frame ⟨.clrDummy, .clear, 0, 0, 0⟩)) :=
    reaches_byte (select s) hs rfl
  rw [tx_eq_emit, tx_eq_emit]
  exact ((reaches_selected s hs .clear 0 0 0).trans hcmd).trans
    (reaches_closed ((select s).emit _) hs (.inl rfl) .clear 0 0 0)

theorem reaches_pulse (hs : s.quiet) :
    Reaches p (s.inSeq .invUp)
      ((setLine .inv false (waitFor .inv (setLine .inv true s))).inSeq .idle) := by
  have hup : Reaches p (s.inSeq .invUp) ((setLine .inv true s).inSeq .invHold) :=
    reaches_row s hs (by simp) rfl
  have hhold : Reaches p ((setLine .inv true s).inSeq .invHold)
      ((waitFor .inv (setLine .inv true s)).inSeq .invDown) :=
    reaches_row (setLine .inv true s) hs (by simp) rfl
  exact (hup.trans hhold).trans
    (reaches_row (waitFor .inv (setLine .inv true s)) hs (by simp) rfl)

/-! ## The loop of REFRESH (42_refresh_sequencer.md R163, R168) -/

section Counters

variable {i cnt line : Nat} (hf : Frame.ok p ⟨.data, .refresh, i, cnt, line⟩)
include hf

theorem Frame.ok.next_byte (hcnt : cnt + 1 ≠ p.bytesPerLine) :
    Frame.ok p ⟨.data, .refresh, i + 1, cnt + 1, line⟩ := by
  obtain ⟨h1, hH, hlt, hi⟩ := hf
  dsimp only at h1 hH hlt hi
  exact ⟨h1, hH, by dsimp only; omega, by dsimp only; omega⟩

theorem Frame.ok.line_sent (hcnt : cnt + 1 = p.bytesPerLine) : i + 1 = line * p.bytesPerLine := by
  obtain ⟨h1, -, -, hi⟩ := hf
  dsimp only at h1 hi
  have := bytes_of_line_end (p := p) h1
  omega

theorem Frame.ok.next_line (hcnt : cnt + 1 = p.bytesPerLine) (hmore : line + 1 ≤ p.H) :
    Frame.ok p ⟨.data, .refresh, i + 1, 0, line + 1⟩ :=
  ⟨Nat.le_add_left 1 line, hmore, Laws.Config.bytesPerLine_pos p, hf.line_sent hcnt⟩

theorem Frame.ok.all_sent (hcnt : cnt + 1 = p.bytesPerLine) (hlast : ¬ line + 1 ≤ p.H) :
    i + 1 = p.N := by
  have hsent := hf.line_sent hcnt
  obtain ⟨-, hH, -, -⟩ := hf
  dsimp only at hH
  rw [hsent, Laws.Config.N_eq, show line = p.H by omega]

end Counters

section Rows

variable (hs : s.quiet) {i cnt : Nat} (hi : i < p.N) (line : Nat)
include hs hi

/-- `S_DATA` with more of the line to come. -/
theorem reaches_inLine (hcnt : cnt + 1 ≠ p.bytesPerLine) :
    Reaches p (s.inSeq (.frame ⟨.data, .refresh, i, cnt, line⟩))
      ((s.emit (byteEvents .lsb (Memory.get p s.buf i))).inSeq
        (.frame ⟨.data, .refresh, i + 1, cnt + 1, line⟩)) := by
  refine reaches_byte s hs ?_
  rw [frameStep_data, withByte_of_lt p hi, if_neg hcnt]
  rfl

/-- `S_DATA` at the end of a line, and `S_TERM`. -/
theorem reaches_terminated (hcnt : cnt + 1 = p.bytesPerLine) :
    Reaches p (s.inSeq (.frame ⟨.data, .refresh, i, cnt, line⟩))
      ((s.emit (byteEvents .lsb (Memory.get p s.buf i) ++ byteEvents .msb 0#8)).inSeq
        (.frame ⟨if line + 1 ≤ p.H then .addr else .trail, .refresh, i + 1, 0, line + 1⟩)) := by
  have hdata : Reaches p (s.inSeq (.frame ⟨.data, .refresh, i, cnt, line⟩))
      ((s.emit (byteEvents .lsb (Memory.get p s.buf i))).inSeq
        (.frame ⟨.term, .refresh, i + 1, cnt + 1, line⟩)) := by
    refine reaches_byte s hs ?_
    rw [frameStep_data, withByte_of_lt p hi, if_pos hcnt]
    rfl
  rw [← emit_emit]
  exact hdata.trans (reaches_byte (s.emit _) hs rfl)

end Rows

/-- The machine in `S_DATA` keeps step with the loop, from any place in the buffer, and closes the frame. -/
theorem reaches_refreshBytes {n i cnt line : Nat} (hf : Frame.ok p ⟨.data, .refresh, i, cnt, line⟩)
    (hn : i + n = p.N) (hs : s.quiet)
    (h : refreshBytes p (List.range' i n) cnt line s = .next t) :
    Reaches p (s.inSeq (.frame ⟨.data, .refresh, i, cnt, line⟩))
      ((deselect (tx .msb 0#8 t)).inSeq .idle) := by
  have hi := hf.data_lt
  induction n generalizing i cnt line s with
  | zero => omega
  | succ n ih =>
    have hn' : i + 1 + n = p.N := by omega
    rw [List.range'_succ] at h
    by_cases hcnt : cnt + 1 = p.bytesPerLine
    · have hterm := reaches_terminated hs hi line hcnt
      rw [refreshBytes_endOfLine hi hcnt, ← emit_emit] at h
      refine hterm.trans ?_
      by_cases hmore : line + 1 ≤ p.H
      · rw [addressEvents, if_pos hmore] at h
        rw [if_pos hmore]
        have hf' := hf.next_line hcnt hmore
        exact (reaches_byte (s.emit _) hs rfl).trans
          (ih (s := (s.emit _).emit _) hf' hn' hs h hf'.data_lt)
      · have hall := hf.all_sent hcnt hmore
        obtain rfl : n = 0 := by omega
        rw [addressEvents, if_neg hmore, emit_nil] at h
        cases h
        rw [if_neg hmore, tx_eq_emit]
        exact reaches_closed (s.emit _) hs (.inr rfl) .refresh (i + 1) 0 (line + 1)
    · have hf' := hf.next_byte hcnt
      rw [refreshBytes_inLine hi hcnt] at h
      exact (reaches_inLine hs hi line hcnt).trans (ih (s := s.emit _) hf' hn' hs h hf'.data_lt)

theorem refreshFrame_eq_next (h : refreshFrame p s = .next t) :
    ∃ u, refreshBytes p (List.range' 0 p.N) 0 1
        (((select s).emit (byteEvents .msb p.cmdWrite)).emit (byteEvents .lsb (lineByte 1))) = .next u ∧
      t = deselect (tx .msb 0#8 u) := by
  obtain ⟨u, hu, ht⟩ := andThen_eq_next h
  rw [tx_eq_emit, tx_eq_emit, List.range_eq_range'] at hu
  cases ht
  exact ⟨u, hu, rfl⟩

theorem reaches_refreshFrame (hs : s.quiet) (h : refreshFrame p s = .next t) :
    Reaches p (s.inSeq (.frame (Frame.start .refresh))) (t.inSeq .idle) := by
  obtain ⟨u, hu, rfl⟩ := refreshFrame_eq_next h
  have hcmd : Reaches p ((select s).inSeq (.frame ⟨.cmd, .refresh, 0, 0, 1⟩))
      (((select s).emit (byteEvents .msb p.cmdWrite)).inSeq (.frame ⟨.addr, .refresh, 0, 0, 1⟩)) :=
    reaches_byte (select s) hs rfl
  have haddr := reaches_byte (p := p) ((select s).emit (byteEvents .msb p.cmdWrite)) hs
    (f := ⟨.addr, .refresh, 0, 0, 1⟩) rfl
  have hfirst : Frame.ok p ⟨.data, .refresh, 0, 0, 1⟩ :=
    ⟨le_rfl, Laws.Config.H_pos p, Laws.Config.bytesPerLine_pos p, by simp⟩
  exact (((reaches_selected s hs .refresh 0 0 1).trans hcmd).trans haddr).trans
    (reaches_refreshBytes (s := ((select s).emit _).emit _) hfirst (Nat.zero_add _) hs hu)

end Reaches

/-! ## Every operation -/

theorem State.inSeq_idle {s : State} (h : s.seq = .idle) : s.inSeq .idle = s := by
  rw [← h]; rfl

theorem exec_keeps_ready {i : Instr} {s t : State} (hs : s.ready = true) (h : exec i s = .next t) :
    t.ready = true := by
  obtain ⟨-, -, -, -, -, -, hseq, htst, htq, -⟩ := onlyTheListedWriters i s t h
  simpa [State.ready, State.busy, hseq, htst, htq] using hs

/-- The state an operation leaves has `SEQ` in `S_IDLE` already. -/
theorem reaches_of_reaches_inSeq_idle {i : Instr} {s u t : State} {p : Params} (hs : s.ready = true)
    (h : Reaches p u (t.inSeq .idle)) (ht : exec i s = .next t) : Reaches p u t := by
  obtain ⟨hseq, -⟩ := State.ready_iff_idle.mp (exec_keeps_ready hs ht)
  rwa [State.inSeq_idle hseq] at h

/-- Started by the operation, the reference machine gets to the state the operation leaves. -/
def MachineRuns (i : Instr) (s : State) : Prop :=
  ∃ u t, fsmBegin Config.params i s = .next u ∧ exec i s = .next t ∧ Reaches Config.params u t

/-- What completes within `S_IDLE` is over when it has begun. -/
theorem MachineRuns.of_begin_eq {i : Instr} {s : State} (h : fsmBegin Config.params i s = exec i s) :
    MachineRuns i s := by
  obtain ⟨t, ht⟩ := exec_completes i s
  exact ⟨t, t, h.trans ht, ht, .refl _ t⟩

theorem fsmBegin_guarded (p : Params) {i : Instr} (hi : guarded i = true) :
    ∃ k : State → Result, ∀ s, fsmBegin p i s = whenInit s k := by
  cases i with
  | init r | sendmsb b | sendlsb b => cases hi
  | _ => exact ⟨_, fun _ => rfl⟩

theorem fsmBegin_of_not_initd (p : Params) {i : Instr} {s : State} (hi : guarded i = true)
    (hs : s.initd = false) : fsmBegin p i s = exec i s := by
  obtain ⟨k, hk⟩ := fsmBegin_guarded p hi
  rw [hk, whenInit_of_not hs, exec_of_not_initd hi hs]

section Begin

variable (p : Params) {s : State} (hs : s.initd = true)
include hs

theorem fsmBegin_clear :
    fsmBegin p .clear s =
      .next (State.inSeq { s with buf := Memory.zero p s.buf } (.frame (Frame.start .clear))) := by
  rw [fsmBegin, whenInit_of_initd hs, State.inSeq]

theorem fsmBegin_refresh :
    fsmBegin p .refresh s = .next (s.inSeq (.frame (Frame.start .refresh))) := by
  rw [fsmBegin, whenInit_of_initd hs, State.inSeq]

theorem fsmBegin_invpulse : fsmBegin p .invpulse s = .next (s.inSeq .invUp) := by
  rw [fsmBegin, whenInit_of_initd hs, State.inSeq]

end Begin

section Started

variable {s : State} (hs : s.ready = true)
include hs

theorem machineRuns_clear (hinit : s.initd = true) : MachineRuns .clear s := by
  obtain ⟨-, hq⟩ := State.ready_iff_idle.mp hs
  have hrun := reaches_clear_sent (p := Config.params)
    { s with buf := Memory.zero Config.params s.buf } hq
  have hexec := exec_clear hinit
  exact ⟨_, _, fsmBegin_clear _ hinit, hexec, reaches_of_reaches_inSeq_idle hs hrun hexec⟩

theorem machineRuns_refresh (hinit : s.initd = true) : MachineRuns .refresh s := by
  obtain ⟨-, hq⟩ := State.ready_iff_idle.mp hs
  obtain ⟨t, ht⟩ := exec_completes .refresh s
  have hrun := reaches_refreshFrame hq ((exec_refresh hinit).symm.trans ht)
  exact ⟨_, t, fsmBegin_refresh _ hinit, ht, reaches_of_reaches_inSeq_idle hs hrun ht⟩

theorem machineRuns_invpulse (hinit : s.initd = true) : MachineRuns .invpulse s := by
  obtain ⟨-, hq⟩ := State.ready_iff_idle.mp hs
  have hexec : exec .invpulse s = .next (setLine .inv false (waitFor .inv (setLine .inv true s))) := by
    rw [exec, execInvpulse, whenInit_of_initd hinit]
  have hrun := reaches_pulse (p := Config.params) hq
  exact ⟨_, _, fsmBegin_invpulse _ hinit, hexec, reaches_of_reaches_inSeq_idle hs hrun hexec⟩

theorem reaches_transport (p : Params) (o : Order) (b : Byte) :
    Reaches p { s with tq := some (encodeTq o b) } (s.emit (byteEvents o b)) := by
  obtain ⟨buf, rot, initd, fault, lines, seq, tst, tq, trace, cmds⟩ := s
  obtain ⟨-, rfl, rfl⟩ := State.ready_iff_idle.mp hs
  exact reaches_request rfl rfl

theorem machineRuns (i : Instr) : MachineRuns i s := by
  by_cases hbefore : guarded i = true ∧ s.initd = false
  · exact .of_begin_eq (fsmBegin_of_not_initd _ hbefore.1 hbefore.2)
  have live : guarded i = true → s.initd = true := by simpa using hbefore
  cases i with
  | init r | setrot r | setpix x y color | getpix x y => exact .of_begin_eq rfl
  | clear => exact machineRuns_clear hs (live rfl)
  | refresh => exact machineRuns_refresh hs (live rfl)
  | invpulse => exact machineRuns_invpulse hs (live rfl)
  | sendmsb b => exact ⟨_, _, rfl, exec_transport .msb b s, reaches_transport hs _ .msb b⟩
  | sendlsb b => exact ⟨_, _, rfl, exec_transport .lsb b s, reaches_transport hs _ .lsb b⟩

end Started

/-- Settles O43: the machine gets to the state the operation leaves, busy on the way; and none of its
steps takes a command word. -/
theorem sequencerMachineRefinesCommand : Obligations.SequencerMachineRefinesCommand := by
  refine ⟨fun i s hs => ?_, fun s t hb h => ?_⟩
  · obtain ⟨u, t, hbegin, hexec, k, hrun⟩ := machineRuns hs i
    exact ⟨k, u, t, hbegin, hrun.fsmRun_eq, hexec, exec_keeps_ready hs hexec,
      fun j hj => hrun.before hj⟩
  · rw [step_busy hb] at h
    obtain ⟨-, -, -, -, -, hcmds⟩ := machineStepEmitsAtMostOneEvent _ s t h
    exact hcmds

end Sys2Proof.Machine
end

section
/-! SUPPORT. The faults (60_exceptions.md): which fault an operation can raise, and in what order its checks are
made. -/

namespace Sys2Proof.Machine

open Sys2Proof Sys2Proof.Claims

/-! ## One fault at most (60_exceptions.md R201) -/

theorem Cause.code_lt (c : Cause) : c.code < 4 := by
  cases c <;> decide

/-- From `s` to `t` no fault is raised, or one is and nothing else is done. -/
def RaisesAtMostOne (s t : State) : Prop :=
  t.fault = s.fault ∨ ∃ c : Cause, raiseFault c s = .next t

/-- An operation that answers the old fault bits raises none. -/
theorem RaisesAtMostOne.of_next {r : Result} {s t u : State} (hu : r = .next u)
    (hfault : u.fault = s.fault) (h : r = .next t) : RaisesAtMostOne s t := by
  cases hu.symm.trans h
  exact .inl hfault

theorem RaisesAtMostOne.unchanged_or_set {s t : State} (h : RaisesAtMostOne s t) :
    t.fault = s.fault ∨ ∃ k, k < 4 ∧ t = { s with fault := s.fault ||| 1#4 <<< k } := by
  obtain hsame | ⟨c, hc⟩ := h
  · exact .inl hsame
  · cases hc
    exact .inr ⟨c.code, c.code_lt, rfl⟩

theorem RaisesAtMostOne.fault_eq {s t : State} (h : RaisesAtMostOne s t) :
    t.fault = s.fault ∨ ∃ k, k < 4 ∧ t.fault = s.fault ||| 1#4 <<< k := by
  obtain hsame | ⟨k, hk, rfl⟩ := h.unchanged_or_set
  · exact .inl hsame
  · exact .inr ⟨k, hk, rfl⟩

theorem pixelWrite_raises {p : Params} {x y : Int} {c : Bool} {s t : State}
    (h : pixelWrite p x y c s = .next t) : RaisesAtMostOne s t := by
  by_cases hin : Inside p x y
  · by_cases hfit : Fits p s.rot x y
    · exact .of_next (pixelWrite_of_fits hin hfit c) rfl h
    · exact .inr ⟨.xformRange, (pixelWrite_of_not_fits hin hfit c).symm.trans h⟩
  · exact .of_next (pixelWrite_of_not_inside hin c s) rfl h

/-- Behind its guard only SETPIX and GETPIX can raise a fault (60_exceptions.md R202). -/
theorem exec_accepted_raises {i : Instr} {s t : State} (live : guarded i = true → s.initd = true)
    (h : exec i s = .next t) : RaisesAtMostOne s t := by
  cases i with
  | init r => exact .of_next (exec_init r s) rfl h
  | setrot r => exact .of_next (exec_setrot (live rfl) r) rfl h
  | setpix x y color => exact pixelWrite_raises ((exec_setpix (live rfl) x y color).symm.trans h)
  | getpix x y => exact .inr ⟨.unsupported, (exec_getpix (live rfl) x y).symm.trans h⟩
  | clear => exact .of_next (exec_clear_eq_emit (live rfl)) rfl h
  | refresh => exact .of_next (exec_refresh_eq_emit (live rfl)) rfl h
  | invpulse => exact .of_next (exec_invpulse (live rfl)) rfl h
  | sendmsb b => exact .of_next (exec_transport .msb b s) rfl h
  | sendlsb b => exact .of_next (exec_transport .lsb b s) rfl h

/-- The guard raises its own fault, and then the operation does not run. -/
theorem exec_raises {i : Instr} {s t : State} (h : exec i s = .next t) : RaisesAtMostOne s t := by
  by_cases hbefore : guarded i = true ∧ s.initd = false
  · obtain ⟨hi, hs⟩ := hbefore
    exact .inr ⟨.notInit, (exec_of_not_initd hi hs).symm.trans h⟩
  · exact exec_accepted_raises (by simpa using hbefore) h

/-- A word taken raises one fault at most: the decoder's, or one of the operation it decodes to. -/
theorem step_word_raises {s t : State} {w : CmdWord} {ws : List CmdWord} (hs : s.ready = true)
    (hw : s.cmds = w :: ws) (h : step s = .next t) : RaisesAtMostOne { s with cmds := ws } t := by
  cases hd : decode w with
  | instr i => exact exec_raises ((step_word hs hw hd).symm.trans h)
  | illegal e => exact .inr ⟨.illegalCmd, (step_illegal_word hs hw hd).symm.trans h⟩

/-- Settles O26: an operation raises one fault at most, and a fault raised is its only effect. -/
theorem faultsArePrecise : Obligations.FaultsArePrecise := fun _ _ _ h => (exec_raises h).unchanged_or_set

/-! ## The order of the checks (60_exceptions.md R207) -/

/-- The `INITD` check, the silent bounds check and the guard on buffer coordinates, in SETPIX's order. -/
theorem setpixOn_checks (p : Params) (x y : Int) (c : Bool) (s : State) :
    (s.initd = false → setpixOn p x y c s = raiseFault .notInit s) ∧
    (s.initd = true → ¬ Inside p x y → setpixOn p x y c s = .next s) ∧
    (s.initd = true → Inside p x y → ¬ Fits p s.rot x y →
      setpixOn p x y c s = raiseFault .xformRange s) ∧
    (s.initd = true → Inside p x y → Fits p s.rot x y →
      ∃ m : Memory, setpixOn p x y c s = .next { s with buf := m }) := by
  have past (hs : s.initd = true) : setpixOn p x y c s = pixelWrite p x y c s :=
    whenInit_of_initd hs _
  exact ⟨fun hs => whenInit_of_not hs _,
    fun hs hin => (past hs).trans (pixelWrite_of_not_inside hin c s),
    fun hs hin hfit => (past hs).trans (pixelWrite_of_not_fits hin hfit c),
    fun hs hin hfit => ⟨_, (past hs).trans (pixelWrite_of_fits hin hfit c)⟩⟩

theorem step_setpix_word {s : State} {w : CmdWord} {ws : List CmdWord} {x y : Int}
    {color : BitVec 16} (hs : s.ready = true) (hw : s.cmds = w :: ws)
    (hd : decode w = .instr (.setpix x y color)) :
    step s = setpixOn Config.params x y (decide (color ≠ 0#16)) { s with cmds := ws } := by
  rw [step_word hs hw hd, exec, execSetpix, colorBit_eq]

/-- Settles O27: the decoder's check is made by the step, `INITD`'s by the guard in front of an operation, and
the rest by the operation behind it. -/
theorem faultPriority : Obligations.FaultPriority := by
  refine ⟨fun s w ws hs hw => ⟨?_, ?_, ?_, ?_, ?_⟩, setpixOn_checks⟩
  · rintro ⟨e, he⟩
    exact step_illegal_word hs hw he
  · intro i hd hi hinit
    exact (step_word hs hw hd).trans (exec_of_not_initd hi hinit)
  · intro x y hd hinit
    exact (step_word hs hw hd).trans (exec_getpix (s := { s with cmds := ws }) hinit x y)
  · intro x y color hd
    exact step_setpix_word hs hw hd
  · intro t h
    exact (step_word_raises hs hw h).fault_eq

/-! ## No halt, and the guard on INITD (60_exceptions.md R201, R203) -/

/-- Settles O28: every operation has an effect to answer with. -/
theorem everyOperationCompletes : Obligations.EveryOperationCompletes := exec_completes

/-- Settles O25: the guard in front of every command but INIT. -/
theorem notInitBeforeInit : Obligations.NotInitBeforeInit := fun _ _ hi hs => exec_of_not_initd hi hs

end Sys2Proof.Machine
end
section
/-! SUPPORT. How long a command waits at least (70_reset_and_hazards.md R242): the delays of the frame bracket and of
the `INV` pulse; a byte on the wire waits for nothing. -/

namespace Sys2Proof.Machine

open Sys2Proof Sys2Proof.Claims

@[simp] theorem waitedMicros_append (p : Params) (es fs : List Event) :
    waitedMicros p (es ++ fs) = waitedMicros p es + waitedMicros p fs := by
  induction es with
  | nil => exact (Nat.zero_add _).symm
  | cons e es ih => cases e <;> simp [waitedMicros, ih, Nat.add_assoc]

@[simp] theorem waitedMicros_bytesEvents (p : Params) (bs : List (Order × Byte)) :
    waitedMicros p (bytesEvents bs) = 0 := by
  induction bs with
  | nil => rfl
  | cons ob bs ih =>
    have hbyte : waitedMicros p (byteEvents ob.1 ob.2) = 0 := rfl
    rw [bytesEvents_cons, waitedMicros_append, hbyte, ih]

/-- A frame waits for its bracket alone, however many bytes it sends. -/
theorem waitedMicros_framed (p : Params) (bs : List (Order × Byte)) :
    waitedMicros p (framed (bytesEvents bs)) =
      p.micros .settle + p.micros .hold + p.micros .deselect := by
  simp [framed, waitedMicros, Nat.add_assoc]

theorem waitedMicros_pulse (p : Params) :
    waitedMicros p [.set .inv true, .wait .inv, .set .inv false] = p.micros .inv := rfl

/-- An accepted host command that waits `d` microseconds on its events, and the line writes of its row. -/
theorem exec_accepted_waits {i : Instr} {s : State} {d : Nat} (hi : hostCommand i = true)
    (hs : s.initd = true)
    (hd : waitedMicros Config.params (acceptedEvents Config.params s.buf i) = d) :
    ∃ t es, exec i s = .next t ∧ t.trace = s.trace ++ es ∧ waitedMicros Config.params es = d ∧
      es.countP Event.isSet = (countRow Config.params i).2.1 := by
  obtain ⟨t, ht⟩ := exec_completes i s
  have hset := congrArg (·.2.1) (tally_acceptedEvents Config.params s.buf hi)
  exact ⟨t, _, ht, (exec_accepted_adds (fun _ => hs) ht).trace, hd, hset⟩

/-- Settles O39: the two framed commands wait for the bracket, INVPULSE for its pulse; the line writes are
those of their rows in R169. -/
theorem commandWaits : Obligations.CommandWaits := fun _ hs =>
  ⟨exec_accepted_waits (i := .clear) rfl hs (waitedMicros_framed _ _),
    exec_accepted_waits (i := .refresh) rfl hs (waitedMicros_framed _ _),
    exec_accepted_waits (i := .invpulse) rfl hs (waitedMicros_pulse _)⟩

end Sys2Proof.Machine
end
